-- ==== Sys2Proof/Word.lean ====
section
/-! DEFINITION. The two bit-vector widths of the block: the byte of the stream (R11, R41) and the 16-bit wire word (R6).
Signed 16-bit values (`i16`, R11) are core Lean's `Int16`. -/

namespace Sys2Proof

/-- `byte`, the unit of transfer (R41). -/
abbrev Byte := BitVec 8

/-- `u16`, the width of every word on the wire (R45). -/
abbrev Word := BitVec 16

end Sys2Proof
end

