-- ==== Sys2Proof/Config.lean ====
section
/-! DEFINITION. What is fixed for the machine: the constants of R6 and the open parameter `RX_DEPTH` of R7. -/

namespace Sys2Proof.Config

/-- `HDR_LEN`: primary header bytes (R6). -/
def hdrLen : Nat := 6

/-- `PAYLOAD_LEN`: payload bytes (R6). -/
def payloadLen : Nat := 4

/-- `PKT_LEN`: bytes of a serialised packet (R6). -/
def pktLen : Nat := 10

/-- `LEN_PREFIX_BYTES`: bytes of the length word before a packet (R6). -/
def lenPrefixBytes : Nat := 2

/-- `FRAME_LEN`: bytes of a frame (R6). -/
def frameLen : Nat := 12

/-- `EXPECTED_LEN`: the only length word the decoder accepts (R6, R67). -/
def expectedLen : Word := 10

/-- `DATA_LENGTH_VALUE`: the `data_length` word the encoder writes, `PAYLOAD_LEN - 1` (R6, R113). -/
def dataLengthValue : Word := 3

end Sys2Proof.Config

namespace Sys2Proof

/-- The admissible values of `RX_DEPTH` (R7): `bounded above` is the capacity `10 + above`, so that no value below 10 can
be written; `unbounded` is no capacity at all. -/
inductive RxDepth where
  | bounded (above : Nat)
  | unbounded
  deriving DecidableEq, Repr, Inhabited

/-- `RX_DEPTH` of this machine: the spec leaves it open (R7, D12), so it has no value here and every claim holds for
every admissible one. Log entry 6. -/
opaque Config.rxDepth : RxDepth

end Sys2Proof
end

