-- ==== Sys2Proof/Syntax.lean ====
section
/-! DEFINITION. The values operations take and return, and the twelve operations of R9 as one inductive type. -/

namespace Sys2Proof

/-- A Packet (R100): three packed header words and two measurements. Every combination of field values is one. -/
structure Packet where
  packetId : Word
  sequenceControl : Word
  dataLength : Word
  temperature : Int16
  humidity : Word
  deriving DecidableEq, Repr

/-- A packet image, `bytes[10]` in format `F-PKT` (R65, R103): a buffer of another size cannot be written down. -/
abbrev PacketImage := Vector Byte 10

/-- A frame image, `bytes[12]` in format `F-FRAME` (R66). -/
abbrev FrameImage := Vector Byte 12

/-- The fields of a `packet_id` word, format `W-PID` (R61). -/
structure PidFields where
  version : BitVec 3
  ptype : BitVec 1
  shf : BitVec 1
  apid : BitVec 11
  deriving DecidableEq, Repr

/-- The fields of a `sequence_control` word, format `W-SEQ` (R62). -/
structure SeqFields where
  seqflags : BitVec 2
  count : BitVec 14
  deriving DecidableEq, Repr

/-- The operations, in the order of their select codes (R9, R74), operands in the order of R76. A header field operand is
a 16-bit word, wider than its field: its meaning reduces it (R69). -/
inductive Instr where
  | pidEnc (version ptype shf apid : Word)
  | pidDec (w : Word)
  | seqEnc (seqflags count : Word)
  | seqDec (w : Word)
  | pktSer (p : Packet)
  | pktDes (bytes : PacketImage)
  | tmBuild (version ptype shf apid seqflags : Word) (temp : Int16) (hum : Word)
  | frmEnc (p : Packet)
  | rxPush (b : Byte)
  | decPoll
  | resetTx
  | resetRx
  deriving DecidableEq, Repr

end Sys2Proof
end

