-- ==== Sys2Proof/Machine/Operands.lean ====
section
/-! DEFINITION. Operand assembly (R68): byte order, the two's complement conversions, taking a field from a word and
putting one into it, and a packet image from a list of bytes. -/

namespace Sys2Proof.Machine

/-- `lo(w)`: bits 7:0 (R13). -/
def lo (w : Word) : Byte := w.setWidth 8

/-- `hi(w)`: bits 15:8 (R13). -/
def hi (w : Word) : Byte := (w >>> 8).setWidth 8

/-- `le16(b0, b1) = b0 + 256 * b1` (R13, R44): `b0` is the byte at the lower offset, the older byte of a stream. -/
def le16 (b0 b1 : Byte) : Word := b0.setWidth 16 + 256 * b1.setWidth 16

/-- `bytes_le16(w)` in stream order (R44). -/
def bytesLe16 (w : Word) : List Byte := [lo w, hi w]

/-- `u16_of_i16` (R13). -/
def u16OfI16 (v : Int16) : Word :=
  if 0 ≤ v.toInt then BitVec.ofInt 16 v.toInt else BitVec.ofInt 16 (v.toInt + 65536)

/-- `i16_of_u16` (R13). -/
def i16OfU16 (w : Word) : Int16 :=
  if w.toNat < 32768 then Int16.ofInt w.toNat else Int16.ofInt (w.toNat - 65536)

/-- An operand reduced to a field of `width` bits and moved to bit `pos`: mask, then left shift (R68, R69). -/
def putField (width pos : Nat) (v : Word) : Word := (v % BitVec.ofNat 16 (2 ^ width)) <<< pos

/-- The field of `width` bits at bit `pos` of a word: right shift, then mask (R68, R97). -/
def getField (width pos : Nat) (w : Word) : BitVec width :=
  ((w >>> pos) &&& BitVec.ofNat 16 (2 ^ width - 1)).setWidth width

/-- Exactly ten bytes as a packet image; a buffer of another size is none (R103). -/
def imageOf (bs : List Byte) : Option PacketImage :=
  if h : bs.length = 10 then some ⟨bs.toArray, by simp [h]⟩ else none

end Sys2Proof.Machine
end

