-- ==== Sys2Proof/WellFormed.lean ====
section
/-! DEFINITION. When an operation's operands all have their stated widths (R11, R69). An operation that is not well formed
still runs: its over-wide operands are cut to size, never rejected (R165). -/

namespace Sys2Proof

/-- The value `v` fits a field of `width` bits. -/
def fitsWidth (width : Nat) (v : Word) : Bool := decide (v.toNat < 2 ^ width)

/-- Each header field operand fits its field: `u3`, `u1`, `u1`, `u11`, `u2`, `u14` (R69). The other operands have types of
exactly their widths. -/
def WellFormed : Instr → Bool
  | .pidEnc version ptype shf apid =>
      fitsWidth 3 version && fitsWidth 1 ptype && fitsWidth 1 shf && fitsWidth 11 apid
  | .seqEnc seqflags count => fitsWidth 2 seqflags && fitsWidth 14 count
  | .tmBuild version ptype shf apid seqflags _ _ =>
      fitsWidth 3 version && fitsWidth 1 ptype && fitsWidth 1 shf && fitsWidth 11 apid && fitsWidth 2 seqflags
  | .pidDec _ => true
  | .seqDec _ => true
  | .pktSer _ => true
  | .pktDes _ => true
  | .frmEnc _ => true
  | .rxPush _ => true
  | .decPoll => true
  | .resetTx => true
  | .resetRx => true

end Sys2Proof
end

