-- ==== Sys2Proof/Decode.lean ====
section
/-! DEFINITION. The select codes (R74), and the decoder and encoder of a call: a select byte, then the operand bytes.

The source has no command encoding (R74), and the spec numbers the operations only, so the layout is the model's own, a
DESIGN CHOICE (log entry 1): byte 0 holds the select code in bits 3:0 (its bits 7:4 are not looked at: log entry 2); then
the operands in the order of R76, a word as two bytes low byte first, a byte as one byte, a packet image as its ten
bytes, a Packet as its five words in the order of R100. -/

namespace Sys2Proof

open Machine (le16 bytesLe16 u16OfI16 i16OfU16 imageOf)

/-- The operations without their operands: one per row of the operation table. -/
inductive Op where
  | pidEnc | pidDec | seqEnc | seqDec | pktSer | pktDes
  | tmBuild | frmEnc | rxPush | decPoll | resetTx | resetRx
  deriving DecidableEq, Repr

/-- The select code of an operation (R74). -/
def Op.select : Op → BitVec 4
  | .pidEnc => 0
  | .pidDec => 1
  | .seqEnc => 2
  | .seqDec => 3
  | .pktSer => 4
  | .pktDes => 5
  | .tmBuild => 6
  | .frmEnc => 7
  | .rxPush => 8
  | .decPoll => 9
  | .resetTx => 10
  | .resetRx => 11

/-- The operation a select code names; codes 12 to 15 name none (R74, R75). -/
def Op.ofSelect (code : BitVec 4) : Option Op :=
  match code.toNat with
  | 0 => some .pidEnc
  | 1 => some .pidDec
  | 2 => some .seqEnc
  | 3 => some .seqDec
  | 4 => some .pktSer
  | 5 => some .pktDes
  | 6 => some .tmBuild
  | 7 => some .frmEnc
  | 8 => some .rxPush
  | 9 => some .decPoll
  | 10 => some .resetTx
  | 11 => some .resetRx
  | _ => none

/-- Why a call is not read as an operation. -/
inductive Reject where
  /-- The call has no select byte. -/
  | noSelect
  /-- The select code names no operation (R75). -/
  | unassignedSelect (code : BitVec 4)
  /-- The call ends before the operands of the named operation do (R11, R103). -/
  | truncatedCall (code : BitVec 4)
  /-- Bytes of the call are left when the operands of the named operation are read (R11, R103). -/
  | oversizedCall (code : BitVec 4)
  deriving DecidableEq, Repr

/-- One word from the front of the operand bytes. -/
def takeWord : List Byte → Option (Word × List Byte)
  | b0 :: b1 :: rest => some (le16 b0 b1, rest)
  | _ => none

/-- One signed word from the front of the operand bytes. -/
def takeI16 (bs : List Byte) : Option (Int16 × List Byte) :=
  (takeWord bs).map fun (w, rest) => (i16OfU16 w, rest)

/-- One byte from the front of the operand bytes. -/
def takeByte : List Byte → Option (Byte × List Byte)
  | b :: rest => some (b, rest)
  | [] => none

/-- One packet image from the front of the operand bytes. -/
def takeImage (bs : List Byte) : Option (PacketImage × List Byte) :=
  (imageOf (bs.take Config.pktLen)).map fun v => (v, bs.drop Config.pktLen)

/-- One Packet, five words in the order of R100, from the front of the operand bytes. -/
def takePacket (bs : List Byte) : Option (Packet × List Byte) := do
  let (packetId, bs) ← takeWord bs
  let (sequenceControl, bs) ← takeWord bs
  let (dataLength, bs) ← takeWord bs
  let (temperature, bs) ← takeI16 bs
  let (humidity, bs) ← takeWord bs
  return (⟨packetId, sequenceControl, dataLength, temperature, humidity⟩, bs)

/-- The operation with its operands read from the operand bytes, and the bytes after them. -/
def decodeOperands : Op → List Byte → Option (Instr × List Byte)
  | .pidEnc, bs => do
      let (version, bs) ← takeWord bs
      let (ptype, bs) ← takeWord bs
      let (shf, bs) ← takeWord bs
      let (apid, bs) ← takeWord bs
      return (.pidEnc version ptype shf apid, bs)
  | .pidDec, bs => do
      let (w, bs) ← takeWord bs
      return (.pidDec w, bs)
  | .seqEnc, bs => do
      let (seqflags, bs) ← takeWord bs
      let (count, bs) ← takeWord bs
      return (.seqEnc seqflags count, bs)
  | .seqDec, bs => do
      let (w, bs) ← takeWord bs
      return (.seqDec w, bs)
  | .pktSer, bs => do
      let (p, bs) ← takePacket bs
      return (.pktSer p, bs)
  | .pktDes, bs => do
      let (image, bs) ← takeImage bs
      return (.pktDes image, bs)
  | .tmBuild, bs => do
      let (version, bs) ← takeWord bs
      let (ptype, bs) ← takeWord bs
      let (shf, bs) ← takeWord bs
      let (apid, bs) ← takeWord bs
      let (seqflags, bs) ← takeWord bs
      let (temp, bs) ← takeI16 bs
      let (hum, bs) ← takeWord bs
      return (.tmBuild version ptype shf apid seqflags temp hum, bs)
  | .frmEnc, bs => do
      let (p, bs) ← takePacket bs
      return (.frmEnc p, bs)
  | .rxPush, bs => do
      let (b, bs) ← takeByte bs
      return (.rxPush b, bs)
  | .decPoll, bs => some (.decPoll, bs)
  | .resetTx, bs => some (.resetTx, bs)
  | .resetRx, bs => some (.resetRx, bs)

/-- The select code of a select byte: bits 3:0, as the operation table's mask `0xF` has it (R74). -/
def selectOf (b : Byte) : BitVec 4 := b.setWidth 4

/-- Read one call from the front of some bytes: the operation with its operands and the bytes that follow, or why there is
none. -/
def decode : List Byte → Except Reject (Instr × List Byte)
  | [] => .error .noSelect
  | b :: bs =>
    match Op.ofSelect (selectOf b) with
    | none => .error (.unassignedSelect (selectOf b))
    | some op =>
      match decodeOperands op bs with
      | none => .error (.truncatedCall (selectOf b))
      | some r => .ok r

/-- The operation of an instruction, without its operands. -/
def opOf : Instr → Op
  | .pidEnc _ _ _ _ => .pidEnc
  | .pidDec _ => .pidDec
  | .seqEnc _ _ => .seqEnc
  | .seqDec _ => .seqDec
  | .pktSer _ => .pktSer
  | .pktDes _ => .pktDes
  | .tmBuild _ _ _ _ _ _ _ => .tmBuild
  | .frmEnc _ => .frmEnc
  | .rxPush _ => .rxPush
  | .decPoll => .decPoll
  | .resetTx => .resetTx
  | .resetRx => .resetRx

/-- Read the bytes of one call, all of them: an operand of another width than the operation's is not accepted (R11), and a
buffer longer than its operand is cut to size no more than a shorter one is filled up (R103). Log entry 13. -/
def decodeCall (bytes : List Byte) : Except Reject Instr :=
  match decode bytes with
  | .ok (i, []) => .ok i
  | .ok (i, _ :: _) => .error (.oversizedCall (opOf i).select)
  | .error r => .error r

/-- How many operand bytes the call of an operation has. -/
def Op.operandCount : Op → Nat
  | .pidEnc => 8
  | .pidDec => 2
  | .seqEnc => 4
  | .seqDec => 2
  | .pktSer => 10
  | .pktDes => 10
  | .tmBuild => 14
  | .frmEnc => 10
  | .rxPush => 1
  | .decPoll => 0
  | .resetTx => 0
  | .resetRx => 0

/-- The bytes of a Packet given as an operand. -/
def packetBytes (p : Packet) : List Byte :=
  bytesLe16 p.packetId ++ bytesLe16 p.sequenceControl ++ bytesLe16 p.dataLength ++
    bytesLe16 (u16OfI16 p.temperature) ++ bytesLe16 p.humidity

/-- The operand bytes of an instruction. -/
def operandBytes : Instr → List Byte
  | .pidEnc version ptype shf apid => bytesLe16 version ++ bytesLe16 ptype ++ bytesLe16 shf ++ bytesLe16 apid
  | .pidDec w => bytesLe16 w
  | .seqEnc seqflags count => bytesLe16 seqflags ++ bytesLe16 count
  | .seqDec w => bytesLe16 w
  | .pktSer p => packetBytes p
  | .pktDes bytes => bytes.toList
  | .tmBuild version ptype shf apid seqflags temp hum =>
      bytesLe16 version ++ bytesLe16 ptype ++ bytesLe16 shf ++ bytesLe16 apid ++ bytesLe16 seqflags ++
        bytesLe16 (u16OfI16 temp) ++ bytesLe16 hum
  | .frmEnc p => packetBytes p
  | .rxPush b => [b]
  | .decPoll => []
  | .resetTx => []
  | .resetRx => []

/-- The bytes of the call of an instruction. -/
def encode (i : Instr) : List Byte := (opOf i).select.setWidth 8 :: operandBytes i

/-- The bytes of the longest call, `TM_BUILD`'s: the select byte and seven words. -/
def longestCall : Nat := 15

/-- The `count` lowest bytes of `w`, least significant first. -/
def lowBytes : Nat → Nat → List Byte
  | 0, _ => []
  | count + 1, w => BitVec.ofNat 8 w :: lowBytes count (w / 256)

/-- The bytes of the call that a select byte begins; of a call that names no operation, the select byte alone. -/
def callLength (b : Byte) : Nat :=
  match Op.ofSelect (selectOf b) with
  | some op => 1 + op.operandCount
  | none => 1

/-- The call whose bits are the `nbits` low bits of `w`, bit 0 the least significant bit of the first byte: its `nbits` in
whole bytes, and zero bytes after them where the operation it names has more. -/
def tableCall (nbits w : Nat) : List Byte :=
  lowBytes (max ((nbits + 7) / 8) (callLength (BitVec.ofNat 8 (w % 2 ^ nbits)))) (w % 2 ^ nbits)

/-- The instruction the decoder reads from a word numbered as the operation table numbers it. -/
def decodeTableWord (nbits w : Nat) : Option Instr :=
  match decodeCall (tableCall nbits w) with
  | .ok i => some i
  | .error _ => none

end Sys2Proof
end

