-- ==== Sys2Proof/Machine/State.lean ====
section
/-! DEFINITION. The state of one link: a TX half, the bytes in flight, an RX half (R20, R33), with what the caller still has
to do and the value the last operation returned. -/

namespace Sys2Proof.Machine

/-- `DSTATE` (R22): the state of the frame decoder. The parameter is the length word that was accepted; in every state a
run reaches it is 10 (R23). -/
inductive DState where
  | awaitingLength
  | awaitingBody (n : Word)
  deriving DecidableEq, Repr

/-- What one `DEC_POLL` returns (R131). -/
inductive PollResult where
  | notYet
  | lenOk
  | packet (p : Packet)
  | framingError (len : Word)
  deriving DecidableEq, Repr

/-- What an operation returns to its caller (R9, R76): `none` for an operation without a result. -/
inductive Output where
  | none
  | word (w : Word)
  | pidFields (f : PidFields)
  | seqFields (f : SeqFields)
  | packetImage (bytes : PacketImage)
  | frameImage (bytes : FrameImage)
  | packet (p : Packet)
  | poll (r : PollResult)
  deriving DecidableEq, Repr

/-- One thing an agent does (R15): the caller calls an operation, given by the bytes of the call; the transport moves the
oldest byte of `LINK` into the RX half (R49); the Producer's adapter writes one frame to the transport (R51). DESIGN CHOICE,
log entry 16: the twelve bytes of a write are any, tied to no result of `FRM_ENC` and to no building order (R123). -/
inductive Event where
  | call (bytes : List Byte)
  | deliver
  | write (frame : FrameImage)
  deriving DecidableEq, Repr

/-- The TX half (R5): `SEQCNT` (R21). -/
structure TxHalf where
  seqcnt : BitVec 14
  deriving DecidableEq, Repr

/-- The RX half (R5): `DSTATE` (R22) and `RXBUF` (R25), oldest byte first. -/
structure RxHalf where
  dstate : DState
  rxbuf : List Byte
  deriving DecidableEq, Repr

/-- One link. `tx` and `rx` are the block's state (R20); `link` is the environment's FIFO `LINK`, oldest byte first (R33,
R49). `pending` and `out` are the model's own: what the agents do next, first thing first (log entry 3), and what the last
step's operation returned (log entry 4). -/
structure State where
  tx : TxHalf
  rx : RxHalf
  link : List Byte
  pending : List Event
  out : Output
  deriving DecidableEq, Repr

/-- After both resets (R180): `SEQCNT` 0, `DSTATE` `AwaitingLength`, `RXBUF` empty. `LINK`, the schedule and the return
port are empty: DESIGN CHOICE, log entries 3, 4 and 5. -/
def State.reset : State where
  tx := { seqcnt := 0 }
  rx := { dstate := .awaitingLength, rxbuf := [] }
  link := []
  pending := []
  out := .none

/-- Why the machine stops with a fault. -/
inductive Fault where
  /-- Raised by `RX_PUSH` when `|RXBUF| = RX_DEPTH`: the operation "has no step" (R130, U12 stuck). Safe: nothing is dropped
  or overwritten, and no claim follows about what comes after. -/
  | rxBufFull
  deriving DecidableEq, Repr

/-- Why the machine gives no meaning to a call. -/
inductive Refusal where
  /-- Raised by an arm of `exec` whose instruction has no meaning yet. Safe. -/
  | notModelled (mnemonic : String)
  /-- Raised by a call without a select byte: no operation is named. Safe. -/
  | noSelect
  /-- Raised by a call whose select code is 12 to 15, which "name no operation" (R75, U17 refuse). Safe. -/
  | unassignedSelect (code : BitVec 4)
  /-- Raised by a call with fewer operand bytes than its operation takes, `PKT_DES` on a short buffer among them (R103,
  R164, U3 refuse). Safe. -/
  | truncatedCall (code : BitVec 4)
  /-- Raised by a call with more operand bytes than its operation takes, `PKT_DES` on a buffer of more than ten bytes among
  them (R11, R103, R164, U3 refuse). Safe. -/
  | oversizedCall (code : BitVec 4)
  /-- Raised by `DEC_POLL` when the body it would hand to `PKT_DES` is not ten bytes (R103, R164, U3 refuse), which takes an
  `AwaitingBody(n)` with `n` other than 10, a state no run reaches (R23). Safe. -/
  | wrongSizedBody (n : Word)
  deriving DecidableEq, Repr

end Sys2Proof.Machine
end

