-- ==== Sys2Proof/Machine/Flags.lean ====
section
/-! DEFINITION. The block has no status flags and no condition codes (R29). What stands here is what takes their place: the
codes of `DEC_POLL`'s results and their two divisions (R131, R160, R162), and the register view of `DSTATE` (R24). -/

namespace Sys2Proof.Machine

/-- The code of a result (R131). -/
def PollResult.code : PollResult → BitVec 2
  | .notYet => 0
  | .lenOk => 1
  | .packet _ => 2
  | .framingError _ => 3

/-- The one error the block reports (R160). -/
def PollResult.isError : PollResult → Bool
  | .framingError _ => true
  | .notYet => false
  | .lenOk => false
  | .packet _ => false

/-- Every result but `NOT_YET` is progress (R131, R162). -/
def PollResult.isProgress : PollResult → Bool
  | .notYet => false
  | .lenOk => true
  | .packet _ => true
  | .framingError _ => true

/-- `DSTATE` as a realisation's registers `DSTATE.tag` and `EXPLEN` hold it (R24): `EXPLEN` is read only while the tag is 1. -/
def DState.ofRegisters (tag : BitVec 1) (explen : Word) : DState :=
  if tag = 0 then .awaitingLength else .awaitingBody explen

/-- The register values that hold a `DSTATE` (R24): in `AwaitingLength` any `EXPLEN` will do. -/
def DState.heldBy (d : DState) (tag : BitVec 1) (explen : Word) : Bool :=
  match d with
  | .awaitingLength => decide (tag = 0)
  | .awaitingBody n => decide (tag = 1) && decide (explen = n)

end Sys2Proof.Machine
end

