-- ==== Sys2Proof/Machine/Ops.lean ====
section
/-! DEFINITION. The named operations over state that the meanings are written with: updates of one part of the state, the
byte-stream primitives `avail`, `pop`, `push` (R14), and reporting a framing error (R169). -/

namespace Sys2Proof.Machine

/-- The state with another TX half. -/
def State.withTx (s : State) (tx : TxHalf) : State := { s with tx := tx }

/-- The state with another RX half. -/
def State.withRx (s : State) (rx : RxHalf) : State := { s with rx := rx }

/-- The state with other bytes in flight. -/
def State.withLink (s : State) (link : List Byte) : State := { s with link := link }

/-- The state with another schedule. -/
def State.withPending (s : State) (pending : List Event) : State := { s with pending := pending }

/-- The state in which the operation that just ran returned `o`: it takes the place of what an earlier one returned, since
a result is held nowhere in the block (R29). -/
def State.returns (s : State) (o : Output) : State := { s with out := o }

/-- `avail()`: the occupancy of `RXBUF` (R14). Reading it changes nothing (R53). -/
def RxHalf.avail (rx : RxHalf) : Nat := rx.rxbuf.length

/-- `pop(k)`: the `k` oldest bytes, oldest first, and `RXBUF` without them (R14). -/
def RxHalf.pop (rx : RxHalf) (k : Nat) : List Byte × List Byte := (rx.rxbuf.take k, rx.rxbuf.drop k)

/-- `push(b)`: `b` becomes the newest byte of `RXBUF` (R14). -/
def RxHalf.push (rx : RxHalf) (b : Byte) : RxHalf := { rx with rxbuf := rx.rxbuf ++ [b] }

/-- `|RXBUF| < RX_DEPTH`, for `n` bytes held (R130). With fewer than 10 there is room whatever the depth (R7). -/
def hasRoom (depth : RxDepth) (n : Nat) : Bool :=
  decide (n < 10) ||
    match depth with
    | .bounded above => decide (n < 10 + above)
    | .unbounded => true

/-- `NOT_YET` is returned; `DSTATE` and `RXBUF` are unchanged (R132, R135, R162). -/
def notYet (s : State) : State := s.returns (.poll .notYet)

/-- The two bytes of a bad length word leave `RXBUF`, `DSTATE` is `AwaitingLength` and `FRAMING_ERROR(len)` is returned
(R133, R169). Nothing is saved and control goes nowhere: this is all there is to entering an error, and there is no return
from one (R166, R170). -/
def reportFramingError (len : Word) (rest : List Byte) (s : State) : State :=
  (s.withRx { dstate := .awaitingLength, rxbuf := rest }).returns (.poll (.framingError len))

/-- The two bytes of a good length word leave `RXBUF`, `DSTATE` is `AwaitingBody(len)` and `LEN_OK` is returned (R134). -/
def acceptLength (len : Word) (rest : List Byte) (s : State) : State :=
  (s.withRx { dstate := .awaitingBody len, rxbuf := rest }).returns (.poll .lenOk)

/-- The bytes of a body leave `RXBUF`, `DSTATE` is `AwaitingLength` and `PACKET(p)` is returned (R136). -/
def emitPacket (p : Packet) (rest : List Byte) (s : State) : State :=
  (s.withRx { dstate := .awaitingLength, rxbuf := rest }).returns (.poll (.packet p))

/-- `SEQCNT <- (SEQCNT + 1) mod 16384` (R110, R111): a 14-bit sum wraps at 16384. -/
def TxHalf.advance (tx : TxHalf) : TxHalf := { tx with seqcnt := tx.seqcnt + 1 }

end Sys2Proof.Machine
end

