-- ==== Sys2Proof/Machine/PacketModel.lean ====
section
/-! DEFINITION. The packet model: `PKT_SER`, `PKT_DES` (`41_packet_model.md`). Pure and total; no field is masked, checked or
altered (R63, R72). -/

namespace Sys2Proof.Machine

/-- `PKT_SER(p) -> bytes[10]` (R101), format `F-PKT` (R65). -/
def pktSer (p : Packet) : PacketImage :=
  let t := u16OfI16 p.temperature
  #v[lo p.packetId, hi p.packetId, lo p.sequenceControl, hi p.sequenceControl, lo p.dataLength, hi p.dataLength,
    lo t, hi t, lo p.humidity, hi p.humidity]

/-- `PKT_DES(bs) -> p` (R102). -/
def pktDes (bs : PacketImage) : Packet where
  packetId := le16 bs[0] bs[1]
  sequenceControl := le16 bs[2] bs[3]
  dataLength := le16 bs[4] bs[5]
  temperature := i16OfU16 (le16 bs[6] bs[7])
  humidity := le16 bs[8] bs[9]

/-- `PKT_SER` (R101). -/
def execPktSer (p : Packet) (s : State) : Host.Outcome State Fault Refusal :=
  .next (s.returns (.packetImage (pktSer p)))

/-- `PKT_DES` (R102). -/
def execPktDes (bytes : PacketImage) (s : State) : Host.Outcome State Fault Refusal :=
  .next (s.returns (.packet (pktDes bytes)))

end Sys2Proof.Machine
end

