-- ==== Sys2Proof/Machine/FrameDecoder.lean ====
section
/-! DEFINITION. The frame decoder: `RX_PUSH` and `DEC_POLL` (`44_frame_decoder.md`). -/

namespace Sys2Proof.Machine

/-- `RX_PUSH(b)` against a buffer of capacity `depth` (R130): with no room there is no step. -/
def pushByte (depth : RxDepth) (b : Byte) (s : State) : Host.Outcome State Fault Refusal :=
  if hasRoom depth s.rx.avail then .next ((s.withRx (s.rx.push b)).returns .none) else .fault .rxBufFull

/-- `DEC_POLL` in `AwaitingLength` (R132, R133, R134): the occupancy is tested first, then the length (R168). Both bytes of
the length word are compared (R71). -/
def pollLength (s : State) : State :=
  match s.rx.rxbuf with
  | b0 :: b1 :: rest =>
    if le16 b0 b1 = Config.expectedLen then acceptLength (le16 b0 b1) rest s
    else reportFramingError (le16 b0 b1) rest s
  | [] => notYet s
  | [_] => notYet s

/-- `DEC_POLL` in `AwaitingBody(n)` (R135, R136). `PKT_DES` takes exactly ten bytes, and a body of another size has no
meaning (R103): log entry 8. -/
def pollBody (n : Word) (s : State) : Host.Outcome State Fault Refusal :=
  if s.rx.avail < n.toNat then .next (notYet s)
  else
    match imageOf (s.rx.pop n.toNat).1 with
    | some image => .next (emitPacket (pktDes image) (s.rx.pop n.toNat).2 s)
    | none => .refused (.wrongSizedBody n)

/-- `RX_PUSH` (R130), against `RX_DEPTH`. -/
def execRxPush (b : Byte) (s : State) : Host.Outcome State Fault Refusal := pushByte Config.rxDepth b s

/-- `DEC_POLL` (R131): one transition at most (R137), chosen by the form of `DSTATE` first (R168). -/
def execDecPoll (s : State) : Host.Outcome State Fault Refusal :=
  match s.rx.dstate with
  | .awaitingLength => .next (pollLength s)
  | .awaitingBody n => pollBody n s

end Sys2Proof.Machine
end

