-- ==== Sys2Proof/Machine/FrameEncoder.lean ====
section
/-! DEFINITION. The frame encoder, `FRM_ENC` (`43_frame_encoder.md`). Pure: `SEQCNT` is not touched and nothing is sent. -/

namespace Sys2Proof.Machine

/-- `FRM_ENC(p) -> bytes[12]` (R120), format `F-FRAME` (R66): the length of the serialised packet, then its bytes. -/
def frmEnc (p : Packet) : FrameImage :=
  let len : Word := BitVec.ofNat 16 Config.pktLen
  let body := pktSer p
  #v[lo len, hi len, body[0], body[1], body[2], body[3], body[4], body[5], body[6], body[7], body[8], body[9]]

/-- `FRM_ENC` (R120). -/
def execFrmEnc (p : Packet) (s : State) : Host.Outcome State Fault Refusal :=
  .next (s.returns (.frameImage (frmEnc p)))

end Sys2Proof.Machine
end

