-- ==== Sys2Proof/Machine/HeaderCodec.lean ====
section
/-! DEFINITION. The header codec: `PID_ENC`, `PID_DEC`, `SEQ_ENC`, `SEQ_DEC` (`40_header_codec.md`). Pure operations: no
state is read or written and none can fail. -/

namespace Sys2Proof.Machine

/-- `PID_ENC(version, ptype, shf, apid) -> w` (R90), format `W-PID` (R61). -/
def pidEnc (version ptype shf apid : Word) : Word :=
  putField 3 13 version ||| putField 1 12 ptype ||| putField 1 11 shf ||| putField 11 0 apid

/-- `PID_DEC(w)` (R91): every field is taken from `w` by right shift, then mask (R97). -/
def pidDec (w : Word) : PidFields where
  version := getField 3 13 w
  ptype := getField 1 12 w
  shf := getField 1 11 w
  apid := getField 11 0 w

/-- `SEQ_ENC(seqflags, count) -> w` (R92), format `W-SEQ` (R62). -/
def seqEnc (seqflags count : Word) : Word := putField 2 14 seqflags ||| putField 14 0 count

/-- `SEQ_DEC(w)` (R93). -/
def seqDec (w : Word) : SeqFields where
  seqflags := getField 2 14 w
  count := getField 14 0 w

/-- `PID_ENC` (R90). -/
def execPidEnc (version ptype shf apid : Word) (s : State) : Host.Outcome State Fault Refusal :=
  .next (s.returns (.word (pidEnc version ptype shf apid)))

/-- `PID_DEC` (R91). -/
def execPidDec (w : Word) (s : State) : Host.Outcome State Fault Refusal :=
  .next (s.returns (.pidFields (pidDec w)))

/-- `SEQ_ENC` (R92): the count is an operand; `SEQCNT` is not read. -/
def execSeqEnc (seqflags count : Word) (s : State) : Host.Outcome State Fault Refusal :=
  .next (s.returns (.word (seqEnc seqflags count)))

/-- `SEQ_DEC` (R93). -/
def execSeqDec (w : Word) (s : State) : Host.Outcome State Fault Refusal :=
  .next (s.returns (.seqFields (seqDec w)))

end Sys2Proof.Machine
end

