-- ==== Sys2Proof/Machine/SystemOps.lean ====
section
/-! DEFINITION. The system operations: `RESET_TX`, `RESET_RX` (`45_system.md`). Each touches its own half only (R152). -/

namespace Sys2Proof.Machine

/-- `RESET_TX` (R150). -/
def execResetTx (s : State) : Host.Outcome State Fault Refusal :=
  .next ((s.withTx { seqcnt := 0 }).returns .none)

/-- `RESET_RX` (R151): what `RXBUF` held is lost; bytes in flight are not touched. -/
def execResetRx (s : State) : Host.Outcome State Fault Refusal :=
  .next ((s.withRx { dstate := .awaitingLength, rxbuf := [] }).returns .none)

end Sys2Proof.Machine
end

