-- ==== Sys2Proof/Machine/TmEncoder.lean ====
section
/-! DEFINITION. The telemetry packet encoder, `TM_BUILD`, and its sequence counter (`42_tm_encoder.md`). -/

namespace Sys2Proof.Machine

/-- The Packet of a `TM_BUILD` that finds `seqcnt` in `SEQCNT`: it carries the count as it stood before the increment
(R110). -/
def buildPacket (version ptype shf apid seqflags : Word) (temp : Int16) (hum : Word) (seqcnt : BitVec 14) : Packet where
  packetId := pidEnc version ptype shf apid
  sequenceControl := seqEnc seqflags (seqcnt.setWidth 16)
  dataLength := Config.dataLengthValue
  temperature := temp
  humidity := hum

/-- `TM_BUILD` (R110): the Packet is returned and `SEQCNT` advances. -/
def execTmBuild (version ptype shf apid seqflags : Word) (temp : Int16) (hum : Word) (s : State) :
    Host.Outcome State Fault Refusal :=
  .next ((s.withTx s.tx.advance).returns
    (.packet (buildPacket version ptype shf apid seqflags temp hum s.tx.seqcnt)))

end Sys2Proof.Machine
end

