-- ==== Sys2Proof/Machine/Dispatch.lean ====
section
/-! DEFINITION. One arm per operation: the meaning of each. -/

namespace Sys2Proof.Machine

def exec (i : Instr) (s : State) : Host.Outcome State Fault Refusal :=
  match i with
  | .pidEnc version ptype shf apid => Sys2Proof.Machine.execPidEnc version ptype shf apid s
  | .pidDec w => Sys2Proof.Machine.execPidDec w s
  | .seqEnc seqflags count => Sys2Proof.Machine.execSeqEnc seqflags count s
  | .seqDec w => Sys2Proof.Machine.execSeqDec w s
  | .pktSer p => Sys2Proof.Machine.execPktSer p s
  | .pktDes bytes => Sys2Proof.Machine.execPktDes bytes s
  | .tmBuild version ptype shf apid seqflags temp hum => Sys2Proof.Machine.execTmBuild version ptype shf apid seqflags temp hum s
  | .frmEnc p => Sys2Proof.Machine.execFrmEnc p s
  | .rxPush b => Sys2Proof.Machine.execRxPush b s
  | .decPoll => Sys2Proof.Machine.execDecPoll s
  | .resetTx => Sys2Proof.Machine.execResetTx s
  | .resetRx => Sys2Proof.Machine.execResetRx s

end Sys2Proof.Machine
end

