-- ==== Sys2Proof/Machine/Agents.lean ====
section
/-! DEFINITION. What the agents around the block do (R15, R174): a call of an operation, the Producer's write to the
transport, and the transport's step (R49 to R51). -/

namespace Sys2Proof.Machine

/-- The refusal of a call that the decoder does not read as an operation. -/
def refusalOf : Reject → Refusal
  | .noSelect => .noSelect
  | .unassignedSelect code => .unassignedSelect code
  | .truncatedCall code => .truncatedCall code
  | .oversizedCall code => .oversizedCall code

/-- A call: the operation its bytes name, on the operands they hold. Operand bytes too few or too many are refused (R11,
R103, R164). -/
def runCall (bytes : List Byte) (s : State) : Host.Outcome State Fault Refusal :=
  match decodeCall bytes with
  | .ok i => exec i s
  | .error r => .refused (refusalOf r)

/-- The Producer's write: the twelve bytes of one frame join `LINK` in offset order, in one step; it always succeeds and
returns nothing (R51). -/
def writeFrame (frame : FrameImage) (s : State) : State := (s.withLink (s.link ++ frame.toList)).returns .none

/-- One step of the transport (R49) against a buffer of capacity `depth`: the oldest byte of `LINK` is pushed into the RX
half. With `LINK` empty there is nothing to move, and with `RXBUF` full the byte stays in `LINK` (R58): log entry 7. -/
def deliverByte (depth : RxDepth) (s : State) : Host.Outcome State Fault Refusal :=
  match s.link with
  | [] => .next (s.returns .none)
  | b :: rest =>
    if hasRoom depth s.rx.avail then pushByte depth b (s.withLink rest) else .next (s.returns .none)

/-- One thing an agent does. DESIGN CHOICE, log entry 15: a call may be any operation, `RX_PUSH` of any byte among them. A
schedule with such a call puts a byte into `RXBUF` past `LINK`, which is outside what R49 assumes of the transport, and so
outside R54 (b), (c) and (e). DESIGN CHOICE, log entry 16: a write may carry any twelve bytes, so the stream of a schedule
need not be the frames of the Packets built, in building order, which is what R123 says a Producer puts on the link. -/
def runEvent (e : Event) (s : State) : Host.Outcome State Fault Refusal :=
  match e with
  | .call bytes => runCall bytes s
  | .deliver => deliverByte Config.rxDepth s
  | .write frame => .next (writeFrame frame s)

/-- Nobody does anything: nothing is returned and the block does nothing (R185). Log entry 3. -/
def idle (s : State) : State := s.returns .none

/-- The event that calls an instruction. -/
def callOf (i : Instr) : Event := .call (encode i)

end Sys2Proof.Machine
end

