-- ==== Sys2Proof/Machine/Step.lean ====
section
/-! DEFINITION. One step of the machine: the first thing of the schedule. The block fetches no instructions (R28, R57): what
runs next is what its caller calls next. -/

namespace Sys2Proof.Machine

/-- One step: the first entry of the schedule is taken off and done. -/
def step (s : State) : Host.Outcome State Fault Refusal :=
  match s.pending with
  | [] => .next (idle s)
  | e :: rest => runEvent e (s.withPending rest)

/-- The state with the call whose bits are `w` put before everything else its agents have to do. Log entry 3. -/
def State.withFetchWord (s : State) (nbits w : Nat) : State :=
  s.withPending (.call (tableCall nbits w) :: s.pending)

end Sys2Proof.Machine
end

