-- ==== Sys2Proof/Machine/Registers.lean ====
section
/-! DEFINITION. A hardware realisation of the RX half (R24): `DSTATE` as the registers `DSTATE.tag` and `EXPLEN`, and the
three operations of the half written on the registers. No meaning is written with it; that it does what the meanings do is
a statement. -/

namespace Sys2Proof.Machine

/-- The registers of an RX half (R24), with its `RXBUF`. -/
structure RxRegisters where
  tag : BitVec 1
  explen : Word
  rxbuf : List Byte
  deriving DecidableEq, Repr

/-- The registers hold this RX half: any `EXPLEN` will do while the tag is 0. -/
def RxRegisters.holds (r : RxRegisters) (rx : RxHalf) : Bool :=
  rx.dstate.heldBy r.tag r.explen && decide (r.rxbuf = rx.rxbuf)

/-- `DEC_POLL` on the registers (R132 to R136). `left` is what `EXPLEN` holds after a transition to `AwaitingLength`, where
its value is unspecified (R24): any at all. -/
def RxRegisters.poll (left : Word) (r : RxRegisters) : Host.Outcome (RxRegisters × PollResult) Fault Refusal :=
  if r.tag = 0 then
    match r.rxbuf with
    | b0 :: b1 :: rest =>
      if le16 b0 b1 = Config.expectedLen then .next ({ tag := 1, explen := le16 b0 b1, rxbuf := rest }, .lenOk)
      else .next ({ tag := 0, explen := left, rxbuf := rest }, .framingError (le16 b0 b1))
    | [] => .next (r, .notYet)
    | [_] => .next (r, .notYet)
  else if r.rxbuf.length < r.explen.toNat then .next (r, .notYet)
  else
    match imageOf (r.rxbuf.take r.explen.toNat) with
    | some image =>
      .next ({ tag := 0, explen := left, rxbuf := r.rxbuf.drop r.explen.toNat }, .packet (pktDes image))
    | none => .refused (.wrongSizedBody r.explen)

/-- `RX_PUSH` on the registers, where there is room (R130). -/
def RxRegisters.push (b : Byte) (r : RxRegisters) : RxRegisters := { r with rxbuf := r.rxbuf ++ [b] }

/-- `RESET_RX` on the registers (R151): the tag is 0, and `EXPLEN` holds any value `left`. -/
def RxRegisters.reset (left : Word) : RxRegisters := { tag := 0, explen := left, rxbuf := [] }

end Sys2Proof.Machine
end

