-- ==== Sys2Proof/Machine/Programs.lean ====
section
/-! DEFINITION. Sequences: a program of operations (`95_test_vectors.md` section 10), the pseudo-operations of R77, a run of
steps, each with what was returned on the way, and several links side by side (R34). -/

namespace Sys2Proof.Machine

/-- Go on with `f` where the first part answers a value; a fault or a refusal ends the whole. -/
def andThen {α β : Type} (o : Host.Outcome α Fault Refusal) (f : α → Host.Outcome β Fault Refusal) :
    Host.Outcome β Fault Refusal :=
  match o with
  | .next a => f a
  | .fault r => .fault r
  | .refused r => .refused r

/-- The operations of a program one after the other, with what each returned. -/
def runProgram : List Instr → State → Host.Outcome (List Output × State) Fault Refusal
  | [], s => .next ([], s)
  | i :: is, s => andThen (exec i s) fun s' => andThen (runProgram is s') fun r => .next (s'.out :: r.1, r.2)

/-- `k` steps, with what was returned by each. -/
def runSteps : Nat → State → Host.Outcome (List Output × State) Fault Refusal
  | 0, s => .next ([], s)
  | k + 1, s => andThen (step s) fun s' => andThen (runSteps k s') fun r => .next (s'.out :: r.1, r.2)

/-- `TM_SEND` (R77): `TM_BUILD`, then `FRM_ENC` of the Packet it returned; the twelve bytes are handed to the transport's
write (R51) and returned. -/
def tmSend (version ptype shf apid seqflags : Word) (temp : Int16) (hum : Word) (s : State) :
    Host.Outcome State Fault Refusal :=
  andThen (exec (.tmBuild version ptype shf apid seqflags temp hum) s) fun s1 =>
    match s1.out with
    | .packet p =>
      andThen (exec (.frmEnc p) s1) fun s2 =>
        match s2.out with
        | .frameImage frame => .next ((writeFrame frame s2).returns (.frameImage frame))
        | _ => .next s2
    | _ => .next s1

/-- `RX_FEED` (R77): `RX_PUSH` of each byte in order. -/
def rxFeed : List Byte → State → Host.Outcome State Fault Refusal
  | [], s => .next s
  | b :: bs, s => andThen (exec (.rxPush b) s) (rxFeed bs)

/-- `DEC_POLL` until one returns `NOT_YET`, at most `fuel` times, with the results before that one. -/
def drainWith : Nat → State → Host.Outcome (List PollResult × State) Fault Refusal
  | 0, s => .next ([], s)
  | fuel + 1, s =>
    andThen (exec .decPoll s) fun s' =>
      match s'.out with
      | .poll r =>
        if r.isProgress then andThen (drainWith fuel s') fun q => .next (r :: q.1, q.2) else .next ([], s')
      | _ => .next ([], s')

/-- `DEC_DRAIN` (R77): every poll that makes progress takes at least two bytes (R144), so one poll more than there are
bytes always reaches `NOT_YET`. -/
def decDrain (s : State) : Host.Outcome (List PollResult × State) Fault Refusal := drainWith (s.rx.avail + 1) s

/-- Several links: several independent instances, each with its own state (R34, R174). DESIGN CHOICE, log entry 9: their
RX halves all have the one capacity `Config.rxDepth`; R7 does not say whether capacities may differ. -/
abbrev Links := List State

/-- One step of the link numbered `k`. Log entry 9. -/
def stepLink (k : Nat) (links : Links) : Host.Outcome Links Fault Refusal :=
  match links[k]? with
  | none => .next links
  | some s => andThen (step s) fun t => .next (links.set k t)

end Sys2Proof.Machine
end

