-- ==== Sys2Proof/Safety.lean ====
section
/-! DEFINITION. What a good state and a good run are, in the terms the statements use. -/

namespace Sys2Proof.Machine

/-- `AwaitingLength` or `AwaitingBody(10)`: the forms of `DSTATE` a run reaches (R23, R145). -/
def DState.legal : DState → Bool
  | .awaitingLength => true
  | .awaitingBody n => decide (n = Config.expectedLen)

/-- `n` bytes are no more than a buffer of capacity `depth` holds (R25). -/
def withinDepth (depth : RxDepth) (n : Nat) : Bool :=
  match depth with
  | .bounded above => decide (n ≤ 10 + above)
  | .unbounded => true

/-- The invariant of the machine: `DSTATE` in a legal form (R23) and `RXBUF` within `RX_DEPTH` (R25). -/
def State.Inv (s : State) : Prop := s.rx.dstate.legal = true ∧ withinDepth Config.rxDepth s.rx.avail = true

/-- The results of polls among what was returned, those of `NOT_YET` left out. -/
def progressOf : List Output → List PollResult
  | [] => []
  | .poll r :: outs => if r.isProgress then r :: progressOf outs else progressOf outs
  | _ :: outs => progressOf outs

/-- The bytes a program pushes, in order. -/
def pushedBytes : List Instr → List Byte
  | [] => []
  | .rxPush b :: is => b :: pushedBytes is
  | _ :: is => pushedBytes is

/-- The Packets that the `TM_BUILD` operations of a program returned, in order. -/
def builtPackets : List Instr → List Output → List Packet
  | .tmBuild _ _ _ _ _ _ _ :: is, .packet p :: outs => p :: builtPackets is outs
  | _ :: is, _ :: outs => builtPackets is outs
  | _, _ => []

/-- The byte stream of a list of Packets: their frames one after the other, nothing between (R123). -/
def frameStream : List Packet → List Byte
  | [] => []
  | p :: ps => (frmEnc p).toList ++ frameStream ps

/-- What a decoder that is in step with the stream answers for a list of Packets (R140). -/
def cleanResults : List Packet → List PollResult
  | [] => []
  | p :: ps => .lenOk :: .packet p :: cleanResults ps

/-- The frames a schedule writes are those of these Packets, in order, and all else it does is deliver and poll. -/
def cleanSchedule : List Event → List Packet → Prop
  | [], ps => ps = []
  | .write frame :: es, p :: ps => frame = frmEnc p ∧ cleanSchedule es ps
  | .write _ :: _, [] => False
  | .deliver :: es, ps => cleanSchedule es ps
  | .call bytes :: es, ps => bytes = encode .decPoll ∧ cleanSchedule es ps

/-- The Packet that a decoder standing at offset 2 of the frame of `p` makes of the ten bytes after `packet_id`, the next
frame's length word among them (R188). -/
def falsePacket (p : Packet) : Packet where
  packetId := p.sequenceControl
  sequenceControl := p.dataLength
  dataLength := u16OfI16 p.temperature
  temperature := i16OfU16 p.humidity
  humidity := Config.expectedLen

/-- The bytes of a list of words. -/
def wordBytes : List Word → List Byte
  | [] => []
  | w :: ws => bytesLe16 w ++ wordBytes ws

/-- The five words of a packet image as a decoder that is out of step reads them (R188). -/
def wireWords (p : Packet) : List Word :=
  [p.packetId, p.sequenceControl, p.dataLength, u16OfI16 p.temperature, p.humidity]

end Sys2Proof.Machine
end

