-- ==== Sys2Proof/Certificates/Slice0/Obligations.lean ====
section
/-! DEFINITION. What is claimed of the model, for the provers. Each docstring names the rules of `spec/` a statement rests on.
Where a rule is marked there as the spec's own decision or inference, the docstring says so. -/

open Sys2Proof Sys2Proof.Machine

/-! ### Calls and steps -/

/-- Calls written out by hand from the select codes (R74, the spec's own numbering, D4) and the layout of log entry 1: the
table's word of each row names its operation, and operands are read low byte first. -/
def Obligations.DecodeReadsTheSelectCodes : Prop :=
  decodeTableWord 8 0x0 = some (.pidEnc 0 0 0 0) ∧
  decodeTableWord 8 0x1 = some (.pidDec 0) ∧
  decodeTableWord 8 0x2 = some (.seqEnc 0 0) ∧
  decodeTableWord 8 0x3 = some (.seqDec 0) ∧
  decodeTableWord 8 0x8 = some (.rxPush 0) ∧
  decodeTableWord 8 0x9 = some .decPoll ∧
  decodeTableWord 8 0xA = some .resetTx ∧
  decodeTableWord 8 0xB = some .resetRx ∧
  decodeTableWord 8 0xC = none ∧
  decodeTableWord 8 0xF = none ∧
  decodeTableWord 24 0x080101 = some (.pidDec 0x0801) ∧
  decodeTableWord 16 0x0A08 = some (.rxPush 0x0A)

/-- No bit of a call is dropped: every operation, with every value of every operand, is read back from its call, and the
bytes after the call are left over. The layout is the model's (log entry 1). -/
def Obligations.DecodeAfterEncodeGivesTheOperationBack : Prop :=
  ∀ (i : Instr) (rest : List Byte), decode (encode i ++ rest) = .ok (i, rest)

/-- A call that is read as an operation is that operation's call, but for bits 7:4 of its select byte, which are not looked
at (log entries 1 and 2). -/
def Obligations.EncodeAfterDecodeGivesTheCallBack : Prop :=
  ∀ (b : Byte) (bs rest : List Byte) (i : Instr),
    decode (b :: bs) = .ok (i, rest) → encode i ++ rest = (selectOf b).setWidth 8 :: bs

/-- Select codes 12 to 15 name no operation and are refused by name (R75, the spec's own, D4; the select byte is log entry
2's). -/
def Obligations.UnassignedSelectCodesAreRefused : Prop :=
  ∀ (s : State) (b : Byte) (bs : List Byte) (es : List Event),
    s.pending = .call (b :: bs) :: es → 12 ≤ b.toNat % 16 → step s = .refused (.unassignedSelect (b.setWidth 4))

/-- A call that ends before its operation's operands do is refused, `PKT_DES` on fewer than ten bytes among them (R103, R164,
the spec's own, D21; the layout is log entry 1's). -/
def Obligations.CallsWithTooFewOperandBytesAreRefused : Prop :=
  ∀ (i : Instr) (k : Nat), k < (operandBytes i).length →
    decode ((encode i).take (k + 1)) = .error (.truncatedCall (opOf i).select)

/-- A step does the first thing of the schedule and takes it off: a call runs the operation its bytes decode to, on the
state without the call; with nothing scheduled nothing is returned and nothing else changes (log entry 3). -/
def Obligations.StepRunsTheDecodedOperation : Prop :=
  (∀ (s : State) (bytes : List Byte) (es : List Event) (i : Instr),
    s.pending = .call bytes :: es → decodeCall bytes = .ok i → step s = exec i { s with pending := es }) ∧
  (∀ (s : State) (es : List Event),
    s.pending = .deliver :: es → step s = deliverByte Config.rxDepth { s with pending := es }) ∧
  (∀ s : State, s.pending = [] → step s = .next { s with out := .none })

/-- The word of an operation put where the machine takes its next call is the operation the very next step runs (log
entry 3). -/
def Obligations.FetchWordRunsTheTableWord : Prop :=
  ∀ (s : State) (nbits w : Nat) (i : Instr), decodeTableWord nbits w = some i → step (s.withFetchWord nbits w) = exec i s

/-! ### Header codec -/

/-- R90: the four operands, each reduced to its field, stand at bits 15:13, 12, 11 and 10:0; in-range operands give equal
words only when they are equal, and every word is the result of some in-range operands. -/
def Obligations.PidEncPacksTheMaskedFields : Prop :=
  (∀ (version ptype shf apid : Word) (s : State),
    exec (.pidEnc version ptype shf apid) s = .next { s with out := .word (BitVec.ofNat 16
      (version.toNat % 8 * 8192 + ptype.toNat % 2 * 4096 + shf.toNat % 2 * 2048 + apid.toNat % 2048)) }) ∧
  (∀ (v t h a v' t' h' a' : Word) (s : State),
    WellFormed (.pidEnc v t h a) = true → WellFormed (.pidEnc v' t' h' a') = true →
    exec (.pidEnc v t h a) s = exec (.pidEnc v' t' h' a') s → v = v' ∧ t = t' ∧ h = h' ∧ a = a') ∧
  (∀ (w : Word) (s : State), ∃ v t h a, WellFormed (.pidEnc v t h a) = true ∧
    exec (.pidEnc v t h a) s = .next { s with out := .word w })

/-- R91 and R97: every field is taken from the word by right shift, then mask, and packing the four fields again gives the
word. -/
def Obligations.PidDecTakesEachField : Prop :=
  (∀ (w : Word) (s : State),
    exec (.pidDec w) s = .next { s with
      out := .pidFields {
        version := BitVec.ofNat 3 (w.toNat / 8192 % 8), ptype := BitVec.ofNat 1 (w.toNat / 4096 % 2),
        shf := BitVec.ofNat 1 (w.toNat / 2048 % 2), apid := BitVec.ofNat 11 (w.toNat % 2048) } }) ∧
  (∀ (w : Word) (s t : State) (f : PidFields),
    exec (.pidDec w) s = .next t → t.out = .pidFields f →
    exec (.pidEnc (f.version.setWidth 16) (f.ptype.setWidth 16) (f.shf.setWidth 16) (f.apid.setWidth 16)) t =
      .next { t with out := .word w })

/-- R92: the two operands, each reduced to its field, stand at bits 15:14 and 13:0; `SEQCNT` is not read; in-range operands
give equal words only when they are equal, and every word is the result of some in-range operands. -/
def Obligations.SeqEncPacksTheMaskedFields : Prop :=
  (∀ (seqflags count : Word) (s : State),
    exec (.seqEnc seqflags count) s = .next { s with out := .word (BitVec.ofNat 16
      (seqflags.toNat % 4 * 16384 + count.toNat % 16384)) }) ∧
  (∀ (f c f' c' : Word) (s : State), WellFormed (.seqEnc f c) = true → WellFormed (.seqEnc f' c') = true →
    exec (.seqEnc f c) s = exec (.seqEnc f' c') s → f = f' ∧ c = c') ∧
  (∀ (w : Word) (s : State), ∃ f c, WellFormed (.seqEnc f c) = true ∧
    exec (.seqEnc f c) s = .next { s with out := .word w })

/-- R93: both fields are taken from the word, and packing them again gives the word. -/
def Obligations.SeqDecTakesEachField : Prop :=
  (∀ (w : Word) (s : State),
    exec (.seqDec w) s = .next { s with
      out := .seqFields {
        seqflags := BitVec.ofNat 2 (w.toNat / 16384 % 4), count := BitVec.ofNat 14 (w.toNat % 16384) } }) ∧
  (∀ (w : Word) (s t : State) (f : SeqFields),
    exec (.seqDec w) s = .next t → t.out = .seqFields f →
    exec (.seqEnc (f.seqflags.setWidth 16) (f.count.setWidth 16)) t = .next { t with out := .word w })

/-- R94: decoding what was encoded gives the operands back, each reduced modulo `2^width` where it was wider. -/
def Obligations.HeaderFieldsSurviveTheRoundTrip : Prop :=
  (∀ (version ptype shf apid w : Word) (s t : State),
    exec (.pidEnc version ptype shf apid) s = .next t → t.out = .word w →
    ∃ f : PidFields, exec (.pidDec w) t = .next { t with out := .pidFields f } ∧
      f.version.toNat = version.toNat % 8 ∧ f.ptype.toNat = ptype.toNat % 2 ∧
      f.shf.toNat = shf.toNat % 2 ∧ f.apid.toNat = apid.toNat % 2048 ∧
      (WellFormed (.pidEnc version ptype shf apid) = true →
        f.version.toNat = version.toNat ∧ f.ptype.toNat = ptype.toNat ∧
        f.shf.toNat = shf.toNat ∧ f.apid.toNat = apid.toNat)) ∧
  (∀ (seqflags count w : Word) (s t : State),
    exec (.seqEnc seqflags count) s = .next t → t.out = .word w →
    ∃ f : SeqFields, exec (.seqDec w) t = .next { t with out := .seqFields f } ∧
      f.seqflags.toNat = seqflags.toNat % 4 ∧ f.count.toNat = count.toNat % 16384 ∧
      (WellFormed (.seqEnc seqflags count) = true →
        f.seqflags.toNat = seqflags.toNat ∧ f.count.toNat = count.toNat))

/-! ### Packet model -/

/-- R101: the five words of a Packet, low byte first, the temperature in two's complement. -/
def Obligations.PktSerWritesTheFiveWordsLowByteFirst : Prop :=
  ∀ (p : Packet) (s : State),
    ∃ t : Nat, (t : Int) = (if 0 ≤ p.temperature.toInt then p.temperature.toInt else p.temperature.toInt + 65536) ∧
    exec (.pktSer p) s = .next { s with out := .packetImage #v[
      BitVec.ofNat 8 (p.packetId.toNat % 256), BitVec.ofNat 8 (p.packetId.toNat / 256),
      BitVec.ofNat 8 (p.sequenceControl.toNat % 256), BitVec.ofNat 8 (p.sequenceControl.toNat / 256),
      BitVec.ofNat 8 (p.dataLength.toNat % 256), BitVec.ofNat 8 (p.dataLength.toNat / 256),
      BitVec.ofNat 8 (t % 256), BitVec.ofNat 8 (t / 256),
      BitVec.ofNat 8 (p.humidity.toNat % 256), BitVec.ofNat 8 (p.humidity.toNat / 256)] }

/-- R102: any ten bytes are read as five words, low byte first, the fourth as a signed value; nothing is checked. -/
def Obligations.PktDesReadsTheFiveWordsLowByteFirst : Prop :=
  ∀ (bs : PacketImage) (s : State),
    ∃ p : Packet, exec (.pktDes bs) s = .next { s with out := .packet p } ∧
      p.packetId.toNat = bs[0].toNat + 256 * bs[1].toNat ∧
      p.sequenceControl.toNat = bs[2].toNat + 256 * bs[3].toNat ∧
      p.dataLength.toNat = bs[4].toNat + 256 * bs[5].toNat ∧
      p.temperature.toInt = (if bs[6].toNat + 256 * bs[7].toNat < 32768 then
        ((bs[6].toNat + 256 * bs[7].toNat : Nat) : Int) else (bs[6].toNat + 256 * bs[7].toNat : Nat) - 65536) ∧
      p.humidity.toNat = bs[8].toNat + 256 * bs[9].toNat

/-- R104: every Packet is read back from its image, and the image is ten bytes long. -/
def Obligations.DeserialisingASerialisedPacketGivesItBack : Prop :=
  ∀ (p : Packet) (s : State), ∃ bs : PacketImage,
    exec (.pktSer p) s = .next { s with out := .packetImage bs } ∧ bs.toList.length = 10 ∧
    exec (.pktDes bs) s = .next { s with out := .packet p }

/-- The other direction (R105, which the spec infers from R101 and R102): every ten bytes are the image of the Packet read
from them. -/
def Obligations.SerialisingADeserialisedImageGivesItBack : Prop :=
  ∀ (bs : PacketImage) (s : State), ∃ p : Packet,
    exec (.pktDes bs) s = .next { s with out := .packet p } ∧
    exec (.pktSer p) s = .next { s with out := .packetImage bs }

/-! ### Telemetry packet encoder -/

/-- R110 and R113: the Packet carries the packed header, the count as it stood, the length word 3 and the two measurements,
and the counter advances modulo 16384; nothing else changes. -/
def Obligations.TmBuildStampsTheCountThenAdvancesIt : Prop :=
  ∀ (version ptype shf apid seqflags : Word) (temp : Int16) (hum : Word) (s : State),
    exec (.tmBuild version ptype shf apid seqflags temp hum) s = .next { s with
      tx := { seqcnt := BitVec.ofNat 14 ((s.tx.seqcnt.toNat + 1) % 16384) }
      out := .packet {
        packetId := BitVec.ofNat 16
          (version.toNat % 8 * 8192 + ptype.toNat % 2 * 4096 + shf.toNat % 2 * 2048 + apid.toNat % 2048)
        sequenceControl := BitVec.ofNat 16 (seqflags.toNat % 4 * 16384 + s.tx.seqcnt.toNat)
        dataLength := 3
        temperature := temp
        humidity := hum } }

/-- R111: after a `TM_BUILD` the counter is one more, or 0 after 16383, and no other operation but `RESET_TX` changes it. -/
def Obligations.OnlyTmBuildAndResetTxChangeTheCounter : Prop :=
  (∀ (i : Instr) (s t : State), opOf i = .tmBuild → exec i s = .next t →
    (s.tx.seqcnt.toNat < 16383 → t.tx.seqcnt.toNat = s.tx.seqcnt.toNat + 1) ∧
    (s.tx.seqcnt.toNat = 16383 → t.tx.seqcnt.toNat = 0)) ∧
  (∀ (i : Instr) (s t : State), opOf i ≠ .tmBuild → opOf i ≠ .resetTx → exec i s = .next t → t.tx = s.tx)

/-- R112: from a counter at 0, and with no `RESET_TX` on the way, the `k`-th Packet built carries the count `k mod 16384`,
whatever the operands and whatever other operations stand between; and a program of builds alone runs to its end. -/
def Obligations.TheKthBuildCarriesTheCountK : Prop :=
  (∀ (is : List Instr) (s t : State) (outs : List Output),
    s.tx = State.reset.tx → (∀ i ∈ is, opOf i ≠ .resetTx) → runProgram is s = .next (outs, t) →
    (builtPackets is outs).map (fun p => (seqDec p.sequenceControl).count.toNat) =
      (List.range (builtPackets is outs).length).map (fun k => k % 16384)) ∧
  (∀ (is : List Instr) (s : State), (∀ i ∈ is, opOf i = .tmBuild) →
    ∃ outs t, runProgram is s = .next (outs, t) ∧ (builtPackets is outs).length = is.length)

/-- R117: the Packet built next after a `RESET_TX` carries the count 0 whatever the last count was, and it is the very Packet
that is built after a wrap: nothing in it tells the two apart. -/
def Obligations.ARestartLooksLikeAWrap : Prop :=
  ∀ (version ptype shf apid seqflags : Word) (temp : Int16) (hum : Word) (s r : State),
    r.tx.seqcnt.toNat = 16383 →
    ∃ (p p' : Packet) (s1 s2 r1 r2 : State),
      exec .resetTx s = .next s1 ∧ s1.tx.seqcnt = 0 ∧
      exec (.tmBuild version ptype shf apid seqflags temp hum) s1 = .next s2 ∧ s2.out = .packet p ∧
      (seqDec p.sequenceControl).count = 0 ∧
      exec (.tmBuild version ptype shf apid seqflags temp hum) r = .next r1 ∧
      exec (.tmBuild version ptype shf apid seqflags temp hum) r1 = .next r2 ∧ r2.out = .packet p' ∧ p' = p

/-! ### Frame encoder -/

/-- R120: the bytes `0A 00`, then the ten bytes `PKT_SER` gives; `SEQCNT` is not touched. -/
def Obligations.FrmEncPutsTheLengthBeforeThePacket : Prop :=
  ∀ (p : Packet) (s : State), ∃ (body : PacketImage) (frame : FrameImage),
    exec (.pktSer p) s = .next { s with out := .packetImage body } ∧
    exec (.frmEnc p) s = .next { s with out := .frameImage frame } ∧
    frame.toList = 0x0A :: 0x00 :: body.toList

/-- The inverse of framing (R122, which the spec infers from R120 and R104): the first two bytes are the word 10 and the last
ten are the image of the Packet. -/
def Obligations.AFrameGivesItsPacketBack : Prop :=
  ∀ (p : Packet) (s t : State) (frame : FrameImage), exec (.frmEnc p) s = .next t → t.out = .frameImage frame →
    le16 frame[0] frame[1] = 10 ∧
    ∃ body : PacketImage, body.toList = frame.toList.drop 2 ∧ exec (.pktDes body) t = .next { t with out := .packet p }

/-! ### Frame decoder -/

/-- `RX_PUSH` with room (R130, the spec's own, D11 and D12): the byte becomes the newest of `RXBUF`, and nothing else
changes. -/
def Obligations.RxPushAppendsTheByte : Prop :=
  ∀ (b : Byte) (s : State), (∀ above, Config.rxDepth = .bounded above → s.rx.rxbuf.length < 10 + above) →
    exec (.rxPush b) s = .next { s with rx := { s.rx with rxbuf := s.rx.rxbuf ++ [b] }, out := .none }

/-- `RX_PUSH` against every capacity (R130, the spec's own, D12; stopping with a fault is log entry 7's): below it the byte is
appended, at it there is no step, and without a capacity there is always room. -/
def Obligations.RxPushHasNoStepWhenTheBufferIsFull : Prop :=
  (∀ (b : Byte) (s : State) (above : Nat), 10 + above ≤ s.rx.rxbuf.length →
    pushByte (.bounded above) b s = .fault .rxBufFull) ∧
  (∀ (b : Byte) (s : State) (above : Nat), s.rx.rxbuf.length < 10 + above →
    pushByte (.bounded above) b s =
      .next { s with rx := { s.rx with rxbuf := s.rx.rxbuf ++ [b] }, out := .none }) ∧
  (∀ (b : Byte) (s : State), pushByte .unbounded b s =
    .next { s with rx := { s.rx with rxbuf := s.rx.rxbuf ++ [b] }, out := .none }) ∧
  (∀ (b : Byte) (s : State), exec (.rxPush b) s = pushByte Config.rxDepth b s)

/-- R132. -/
def Obligations.PollWithLessThanALengthReturnsNotYet : Prop :=
  ∀ s : State, s.rx.dstate = .awaitingLength → s.rx.rxbuf.length < 2 →
    exec .decPoll s = .next { s with out := .poll .notYet }

/-- R133 (that the result carries the length word is the spec's own, D14 and D15). -/
def Obligations.PollOfABadLengthDropsItsTwoBytes : Prop :=
  ∀ (s : State) (b0 b1 : Byte) (rest : List Byte),
    s.rx.dstate = .awaitingLength → s.rx.rxbuf = b0 :: b1 :: rest → b0.toNat + 256 * b1.toNat ≠ 10 →
    exec .decPoll s = .next { s with
      rx := { dstate := .awaitingLength, rxbuf := rest }
      out := .poll (.framingError (BitVec.ofNat 16 (b0.toNat + 256 * b1.toNat))) }

/-- R134. -/
def Obligations.PollOfTheGoodLengthAwaitsTheBody : Prop :=
  ∀ (s : State) (b0 b1 : Byte) (rest : List Byte),
    s.rx.dstate = .awaitingLength → s.rx.rxbuf = b0 :: b1 :: rest → b0.toNat + 256 * b1.toNat = 10 →
    b0 = 0x0A ∧ b1 = 0x00 ∧
    exec .decPoll s = .next { s with
      rx := { dstate := .awaitingBody 10, rxbuf := rest }
      out := .poll .lenOk }

/-- R135. -/
def Obligations.PollWithLessThanABodyReturnsNotYet : Prop :=
  ∀ (s : State) (n : Word), s.rx.dstate = .awaitingBody n → s.rx.rxbuf.length < n.toNat →
    exec .decPoll s = .next { s with out := .poll .notYet }

/-- R136. -/
def Obligations.PollOfABodyEmitsItsPacket : Prop :=
  ∀ (s : State) (bs : PacketImage) (rest : List Byte),
    s.rx.dstate = .awaitingBody 10 → s.rx.rxbuf = bs.toList ++ rest →
    ∃ p : Packet, exec (.pktDes bs) s = .next { s with out := .packet p } ∧
      exec .decPoll s = .next { s with
        rx := { dstate := .awaitingLength, rxbuf := rest }
        out := .poll (.packet p) }

/-- Where `PKT_DES` would be handed a body that is not ten bytes, the poll is refused (R103, the spec's own, D21; log entry 8).
No run comes here: see `StepKeepsTheInvariant`. -/
def Obligations.PollRefusesABodyOfAnotherSize : Prop :=
  ∀ (s : State) (n : Word), s.rx.dstate = .awaitingBody n → n ≠ 10 → n.toNat ≤ s.rx.rxbuf.length →
    exec .decPoll s = .refused (.wrongSizedBody n)

/-- A poll never blocks (R138, in the forms of `DSTATE` that R23 says are reached): it answers at once with one result, and
touches nothing outside the RX half. -/
def Obligations.PollAlwaysAnswersOneResult : Prop :=
  ∀ s : State, s.rx.dstate.legal = true →
    ∃ (t : State) (r : PollResult), exec .decPoll s = .next t ∧ t.out = .poll r ∧ t.rx.dstate.legal = true ∧
      t.tx = s.tx ∧ t.link = s.link ∧ t.pending = s.pending

/-- The result of a poll and the state of the RX half after it are functions of `DSTATE` and `RXBUF` alone (R138). -/
def Obligations.PollDependsOnTheRxHalfOnly : Prop :=
  ∀ s s' t : State, s.rx = s'.rx → exec .decPoll s = .next t →
    ∃ t' : State, exec .decPoll s' = .next t' ∧ t'.rx = t.rx ∧ t'.out = t.out

/-- R139: a `PACKET` result is made of exactly the ten oldest bytes of `RXBUF`, taken in that one step, and until then a poll
hands out nothing of a body: only `DEC_POLL` returns a result, and each result says what was consumed. -/
def Obligations.NoPartOfABodyIsSeenBeforeItsPacket : Prop :=
  ∀ (i : Instr) (s t : State) (r : PollResult), exec i s = .next t → t.out = .poll r →
    i = .decPoll ∧
    (r = .notYet → t.rx = s.rx) ∧
    (r = .lenOk → s.rx.dstate = .awaitingLength ∧ t.rx.dstate = .awaitingBody 10 ∧
      s.rx.rxbuf = 0x0A :: 0x00 :: t.rx.rxbuf) ∧
    (∀ len, r = .framingError len → s.rx.dstate = .awaitingLength ∧ t.rx.dstate = .awaitingLength ∧ len ≠ 10 ∧
      ∃ b0 b1, le16 b0 b1 = len ∧ s.rx.rxbuf = b0 :: b1 :: t.rx.rxbuf) ∧
    (∀ p, r = .packet p → s.rx.dstate = .awaitingBody 10 ∧ t.rx.dstate = .awaitingLength ∧
      ∃ bs : PacketImage, p = pktDes bs ∧ s.rx.rxbuf = bs.toList ++ t.rx.rxbuf)

/-- The number of bytes consumed since reset is always even (R144 and R189, which the spec infers from R132 to R136): `RXBUF`
holds what was pushed less an even number of its oldest bytes, so a decoder one byte out of step stays out of step. -/
def Obligations.AnEvenNumberOfBytesIsConsumed : Prop :=
  ∀ (is : List Instr) (s t : State) (outs : List Output),
    s.rx = State.reset.rx → (∀ i ∈ is, opOf i ≠ .resetRx) → runProgram is s = .next (outs, t) →
    ∃ k, 2 * k ≤ (pushedBytes is).length ∧ t.rx.rxbuf = (pushedBytes is).drop (2 * k)

/-- R140, the fragmentation law, for one frame or many: however the pushes of a stream of frames and the polls are
interleaved, the results other than `NOT_YET` are those of the Packets framed, in order, and the RX half ends as it began.
And a push that a full buffer holds off has a step after the next poll. -/
def Obligations.FragmentationDoesNotMatter : Prop :=
  (∀ (ps : List Packet) (is : List Instr) (s t : State) (outs : List Output),
    s.rx = State.reset.rx → (∀ i ∈ is, opOf i = .decPoll ∨ opOf i = .rxPush) →
    pushedBytes is = frameStream ps → runProgram is s = .next (outs, t) →
    ∃ (rs : List PollResult) (u : State), decDrain t = .next (rs, u) ∧
      progressOf outs ++ rs = cleanResults ps ∧ u.rx = State.reset.rx) ∧
  (∀ (depth : RxDepth) (b : Byte) (s : State), s.rx.dstate.legal = true →
    withinDepth depth s.rx.rxbuf.length = true → pushByte depth b s = .fault .rxBufFull →
    ∃ t u : State, exec .decPoll s = .next t ∧ pushByte depth b t = .next u)

/-- R141: a bad length word gives one error, leaves with its two bytes only and leaves `AwaitingLength`; however many there
are, each gives one, and a valid frame directly after them is decoded; a pair `0A 00` among arbitrary bytes is taken for a
length, and the ten bytes after it for a body, whatever they are. -/
def Obligations.BadLengthsAreDroppedOneByOne : Prop :=
  (∀ (s : State) (w : Word) (rest : List Byte), s.rx.dstate = .awaitingLength → w ≠ 10 →
    s.rx.rxbuf = wordBytes [w] ++ rest →
    exec .decPoll s = .next { s with
      rx := { dstate := .awaitingLength, rxbuf := rest }, out := .poll (.framingError w) }) ∧
  (∀ (s : State) (ws : List Word) (p : Packet), s.rx.dstate = .awaitingLength → (∀ w ∈ ws, w ≠ 10) →
    s.rx.rxbuf = wordBytes ws ++ (frmEnc p).toList →
    ∃ u : State, decDrain s = .next (ws.map .framingError ++ [.lenOk, .packet p], u) ∧ u.rx = State.reset.rx) ∧
  (∀ (s u : State) (ws : List Word) (bs : PacketImage) (rest : List Byte) (rs : List PollResult),
    s.rx.dstate = .awaitingLength → (∀ w ∈ ws, w ≠ 10) →
    s.rx.rxbuf = wordBytes ws ++ 0x0A :: 0x00 :: (bs.toList ++ rest) →
    decDrain { s with rx := { dstate := .awaitingLength, rxbuf := rest } } = .next (rs, u) →
    ∃ v : State, decDrain s = .next (ws.map .framingError ++ .lenOk :: .packet (pktDes bs) :: rs, v) ∧ v.rx = u.rx)

/-- Misalignment by an even number of bytes heals where no word on the way is 10 (R188, which the spec infers): from offset
`2k + 2` of a frame each of its remaining words gives one error, and the next frame is decoded. -/
def Obligations.EvenMisalignmentHealsAtTheNextFrame : Prop :=
  ∀ (s : State) (p q : Packet) (k : Nat), k < 5 → s.rx.dstate = .awaitingLength →
    (∀ w ∈ (wireWords p).drop k, w ≠ 10) →
    s.rx.rxbuf = (frmEnc p).toList.drop (2 * k + 2) ++ (frmEnc q).toList →
    ∃ u : State, decDrain s = .next (((wireWords p).drop k).map .framingError ++ [.lenOk, .packet q], u) ∧
      u.rx = State.reset.rx

/-- The false lock (R188, which the spec infers): where every frame's `packet_id` is 10, a decoder standing at offset 2 emits
a false Packet per frame for ever, with no error at all. -/
def Obligations.AFalseLockNeverReportsAnError : Prop :=
  ∀ (s : State) (p : Packet) (ps : List Packet), s.rx.dstate = .awaitingLength →
    (∀ q ∈ p :: ps, q.packetId = 10) → s.rx.rxbuf = (frameStream (p :: ps)).drop 2 →
    ∃ u : State, decDrain s = .next (cleanResults (((p :: ps).dropLast).map falsePacket) ++ [.lenOk], u) ∧
      u.rx.dstate = .awaitingBody 10 ∧ u.rx.rxbuf.length = 8

/-- R142: a decoder short of a body answers `NOT_YET` to any number of polls and nothing changes, and the only operation that
leaves `AwaitingBody` without ten bytes is `RESET_RX`. -/
def Obligations.AParkedDecoderStaysParked : Prop :=
  (∀ (k : Nat) (s : State) (n : Word), s.rx.dstate = .awaitingBody n → s.rx.rxbuf.length < n.toNat →
    ∃ t : State, runProgram (List.replicate k .decPoll) s = .next (List.replicate k (.poll .notYet), t) ∧
      t.rx = s.rx ∧ t.tx = s.tx ∧ t.link = s.link) ∧
  (∀ (i : Instr) (s t : State), s.rx.dstate = .awaitingBody 10 → s.rx.rxbuf.length < 10 → exec i s = .next t →
    t.rx.dstate ≠ .awaitingBody 10 → i = .resetRx)

/-! ### System operations, and what every operation keeps -/

/-- `RESET_TX` (R150 and R152, the spec's own, D17): the counter is 0, and nothing of the RX half, nothing in flight, changes. -/
def Obligations.ResetTxZeroesTheCounterOnly : Prop :=
  ∀ s : State, exec .resetTx s = .next { s with tx := { seqcnt := 0 }, out := .none }

/-- `RESET_RX` (R151 and R152, the spec's own, D17): `AwaitingLength` and an empty `RXBUF`, and nothing of the TX half, nothing
in flight, changes. -/
def Obligations.ResetRxEmptiesTheRxHalfOnly : Prop :=
  ∀ s : State, exec .resetRx s = .next { s with rx := { dstate := .awaitingLength, rxbuf := [] }, out := .none }

/-- The writers of each state element (R20's table), and no operation touches what is in flight (R33, R49). -/
def Obligations.EachStateElementHasItsWriters : Prop :=
  ∀ (i : Instr) (s t : State), exec i s = .next t →
    (t.tx ≠ s.tx → opOf i = .tmBuild ∨ opOf i = .resetTx) ∧
    (t.rx.dstate ≠ s.rx.dstate → opOf i = .decPoll ∨ opOf i = .resetRx) ∧
    (t.rx.rxbuf ≠ s.rx.rxbuf → opOf i = .rxPush ∨ opOf i = .decPoll ∨ opOf i = .resetRx) ∧
    t.link = s.link ∧ t.pending = s.pending

/-- The readers of each half (R20's table, R34): an operation that is not one of a half's own neither reads nor writes it; and
no operation reads what was returned before, what is in flight or what is scheduled (log entries 3, 4 and 5). -/
def Obligations.NoOperationReadsTheOtherHalf : Prop :=
  (∀ (i : Instr) (s t : State) (tx : TxHalf), opOf i ≠ .tmBuild → opOf i ≠ .resetTx →
    exec i s = .next t → exec i { s with tx := tx } = .next { t with tx := tx }) ∧
  (∀ (i : Instr) (s t : State) (rx : RxHalf), opOf i ≠ .rxPush → opOf i ≠ .decPoll → opOf i ≠ .resetRx →
    exec i s = .next t → exec i { s with rx := rx } = .next { t with rx := rx }) ∧
  (∀ (i : Instr) (s t : State) (link : List Byte) (pending : List Event) (out : Output),
    exec i s = .next t →
    exec i { s with link := link, pending := pending, out := out } =
      .next { t with link := link, pending := pending })

/-- The seven pure operations (R53, which the spec infers): same operands, same result, in every state, and nothing else
changes. -/
def Obligations.PureOperationsAreFunctionsOfTheirOperands : Prop :=
  ∀ i : Instr, opOf i ∈ [Op.pidEnc, Op.pidDec, Op.seqEnc, Op.seqDec, Op.pktSer, Op.pktDes, Op.frmEnc] →
    ∃ o : Output, o ≠ .none ∧ ∀ s : State, exec i s = .next { s with out := o }

/-! ### Invariants -/

/-- The values after reset (R21, R22; `RXBUF` empty is the spec's own, D17; the other fields are log entries 3, 4 and 5's), and
the invariant holds there. -/
def Obligations.ResetMeetsTheInvariant : Prop :=
  State.reset.tx.seqcnt = 0 ∧ State.reset.rx.dstate = .awaitingLength ∧ State.reset.rx.rxbuf = [] ∧ State.reset.Inv

/-- From every state that meets it, a step keeps the invariant: `DSTATE` is `AwaitingLength` or `AwaitingBody(10)` (R23, R145,
which the spec infers) and `RXBUF` holds no more than `RX_DEPTH` bytes (R25, R130, the spec's own, D12). -/
def Obligations.StepKeepsTheInvariant : Prop :=
  ∀ s t : State, s.Inv → step s = .next t → t.Inv

/-- Where the invariant holds, a step stops only on a push against a full buffer and on a call that names no operation or
has operand bytes too few or too many; a poll is never refused. How the model stops and goes on is its own choice: that a
full push stops with the fault `rxBufFull` and a held-off step of the transport runs (log entry 7), that an idle step runs
(log entry 3), and that such calls are refused by name (log entry 13). -/
def Obligations.OnlyMisusesStopTheMachine : Prop :=
  ∀ s : State, s.Inv →
    (∃ t : State, step s = .next t) ∨
    (∃ bytes es b, s.pending = .call bytes :: es ∧ decodeCall bytes = .ok (.rxPush b) ∧
      step s = .fault .rxBufFull) ∨
    (∃ bytes es r, s.pending = .call bytes :: es ∧ decodeCall bytes = .error r ∧ step s = .refused (refusalOf r))

/-! ### Transport -/

/-- The transport's step (R49, R58, the spec's own, D12 and D23): with room the oldest byte of `LINK` becomes the newest of
`RXBUF`; with `LINK` empty or `RXBUF` full nothing moves and nothing is lost (log entry 7). -/
def Obligations.TheTransportMovesTheOldestByte : Prop :=
  (∀ (s : State) (b : Byte) (rest : List Byte) (es : List Event),
    s.pending = .deliver :: es → s.link = b :: rest →
    (∀ above, Config.rxDepth = .bounded above → s.rx.rxbuf.length < 10 + above) →
    step s = .next { s with
      link := rest, rx := { s.rx with rxbuf := s.rx.rxbuf ++ [b] }, pending := es, out := .none }) ∧
  (∀ (s : State) (es : List Event), s.pending = .deliver :: es → s.link = [] →
    step s = .next { s with pending := es, out := .none }) ∧
  (∀ (s : State) (above : Nat), 10 + above ≤ s.rx.rxbuf.length →
    deliverByte (.bounded above) s = .next { s with out := .none })

/-- R51: a write appends the twelve bytes of one frame to `LINK` in offset order, in one step; it always succeeds and returns
nothing. -/
def Obligations.AWriteAppendsItsFrameToTheLink : Prop :=
  ∀ (s : State) (frame : FrameImage) (es : List Event), s.pending = .write frame :: es →
    step s = .next { s with link := s.link ++ frame.toList, pending := es, out := .none }

/-- On a clean, aligned link there is never an error and no Packet is lost or changed (R54 and R190, which the spec infers):
however the writes of frames, the transport's steps and the polls are scheduled, every step runs, the results other than
`NOT_YET` are a beginning of those of the Packets written, and once all bytes have arrived a drain gives the rest. The
schedule is the model's form of the agents' acts (log entry 3), and that a step of the transport that a full buffer holds
off is a step that runs is its own choice (log entry 7). -/
def Obligations.ACleanLinkDeliversEveryPacketInOrder : Prop :=
  ∀ (ps : List Packet) (es : List Event) (s : State),
    cleanSchedule es ps → s.rx = State.reset.rx → s.link = [] → s.pending = es →
    ∃ (outs : List Output) (t : State), runSteps es.length s = .next (outs, t) ∧
      (∃ more, progressOf outs ++ more = cleanResults ps) ∧
      (t.link = [] → ∃ (rs : List PollResult) (u : State), decDrain t = .next (rs, u) ∧
        progressOf outs ++ rs = cleanResults ps ∧ u.rx = State.reset.rx)

/-! ### Pseudo-operations, registers, links -/

/-- `TM_SEND` (R77, the spec's own, D13): the Packet `TM_BUILD` returns is framed, its frame joins `LINK`, the counter has
advanced once and the twelve bytes are returned. -/
def Obligations.TmSendPutsTheFrameOfTheBuiltPacketOnTheLink : Prop :=
  ∀ (version ptype shf apid seqflags : Word) (temp : Int16) (hum : Word) (s : State),
    ∃ (p : Packet) (frame : FrameImage) (t : State),
      exec (.tmBuild version ptype shf apid seqflags temp hum) s = .next t ∧ t.out = .packet p ∧
      exec (.frmEnc p) t = .next { t with out := .frameImage frame } ∧
      tmSend version ptype shf apid seqflags temp hum s =
        .next { s with tx := t.tx, link := s.link ++ frame.toList, out := .frameImage frame }

/-- `RX_FEED` (R77, the spec's own, D13): where there is room for all of them the bytes join `RXBUF` in order. -/
def Obligations.RxFeedAppendsTheBytesInOrder : Prop :=
  ∀ (bs : List Byte) (s : State),
    (∀ above, Config.rxDepth = .bounded above → s.rx.rxbuf.length + bs.length ≤ 10 + above) →
    ∃ t : State, rxFeed bs s = .next t ∧ t.rx = { s.rx with rxbuf := s.rx.rxbuf ++ bs } ∧
      t.tx = s.tx ∧ t.link = s.link

/-- `DEC_DRAIN` (R77, the spec's own, D13) always ends (R144, which the spec infers): every result in it is progress, there are
at most half as many as bytes, and a further poll returns `NOT_YET` and changes nothing. -/
def Obligations.DecDrainEndsAtNotYet : Prop :=
  ∀ s : State, s.rx.dstate.legal = true →
    ∃ (rs : List PollResult) (t : State), decDrain s = .next (rs, t) ∧ (∀ r ∈ rs, r.isProgress = true) ∧
      2 * rs.length ≤ s.rx.rxbuf.length ∧ t.out = .poll .notYet ∧ exec .decPoll t = .next t

/-- The registers of a realisation (R24, the spec's own, D16; log entry 14): which register values hold a `DSTATE`; the
operations of the RX half written on the registers, whatever they leave in `EXPLEN` where its value is unspecified, give the
results of `DEC_POLL` and hold the RX half that it, `RESET_RX` and `RX_PUSH` leave; and while the tag is 0, neither the
result of a poll nor what is read later depends on `EXPLEN`. -/
def Obligations.ExplenIsReadOnlyWhileABodyIsAwaited : Prop :=
  (∀ (d : DState) (tag : BitVec 1) (explen : Word), d.heldBy tag explen = true ↔ DState.ofRegisters tag explen = d) ∧
  (∀ (left : Word) (r : RxRegisters) (s : State), r.holds s.rx = true →
    (∃ (r' : RxRegisters) (result : PollResult) (t : State), r.poll left = .next (r', result) ∧
      exec .decPoll s = .next t ∧ t.out = .poll result ∧ r'.holds t.rx = true) ∨
    (∃ q : Refusal, r.poll left = .refused q ∧ exec .decPoll s = .refused q)) ∧
  (∀ (left : Word) (s : State), ∃ t : State,
    exec .resetRx s = .next t ∧ (RxRegisters.reset left).holds t.rx = true) ∧
  (∀ (b : Byte) (r : RxRegisters) (s t : State), r.holds s.rx = true → exec (.rxPush b) s = .next t →
    (r.push b).holds t.rx = true) ∧
  (∀ (left left' e e' : Word) (bs : List Byte), ∃ (r r' : RxRegisters) (result : PollResult),
    RxRegisters.poll left { tag := 0, explen := e, rxbuf := bs } = .next (r, result) ∧
    RxRegisters.poll left' { tag := 0, explen := e', rxbuf := bs } = .next (r', result) ∧
    r.tag = r'.tag ∧ r.rxbuf = r'.rxbuf ∧ (r.tag = 1 → r.explen = r'.explen))

/-- Two links share nothing (R34, R174; log entry 9): a step of one leaves every other as it was, and is the step of that link
alone. -/
def Obligations.AStepOfOneLinkLeavesTheOthersAlone : Prop :=
  ∀ (k : Nat) (links links' : Links), stepLink k links = .next links' →
    (∀ j, j ≠ k → links'[j]? = links[j]?) ∧
    (∀ s, links[k]? = some s → ∃ t, step s = .next t ∧ links'[k]? = some t)

/-- The codes of the four results (R131, the spec's own, D14), and the one error among them (R160). -/
def Obligations.ResultCodesAreDistinct : Prop :=
  (∀ r r' : PollResult, r.code = r'.code → r.isError = r'.isError ∧ r.isProgress = r'.isProgress) ∧
  PollResult.notYet.code = 0 ∧ PollResult.lenOk.code = 1 ∧ (∀ p, (PollResult.packet p).code = 2) ∧
  (∀ len, (PollResult.framingError len).code = 3) ∧
  (∀ r : PollResult, r.isError = true ↔ ∃ len, r = .framingError len)

/-- A scheduled call is run just when it has exactly the operand bytes of its operation: with more, it is refused by name,
`PKT_DES` on a buffer of more than ten bytes among them (R11, R103, R164; R103 is the spec's own, D21; the layout and the
refusal's name are log entries 1 and 13's). -/
def Obligations.CallsWithSurplusBytesAreRefused : Prop :=
  ∀ (s : State) (i : Instr) (es : List Event),
    (s.pending = .call (encode i) :: es → step s = exec i { s with pending := es }) ∧
    (∀ (b : Byte) (rest : List Byte), s.pending = .call (encode i ++ b :: rest) :: es →
      step s = .refused (.oversizedCall (opOf i).select))
end

