-- ==== Sys2Proof/Laws/Operands.lean ====
section
/-! SUPPORT. What the operand assembly does: the byte order primitives are inverse to each other (R44), and so are the two's
complement conversions (R13); the value of a field put or taken; a packet image and its bytes. -/

namespace Sys2Proof.Machine

theorem lo_toNat (w : Word) : (lo w).toNat = w.toNat % 256 := by
  simp [lo]

theorem hi_toNat (w : Word) : (hi w).toNat = w.toNat / 256 := by
  simp only [hi, BitVec.toNat_setWidth, BitVec.toNat_ushiftRight, Nat.shiftRight_eq_div_pow]
  have := w.isLt
  omega

theorem le16_toNat (b0 b1 : Byte) : (le16 b0 b1).toNat = b0.toNat + 256 * b1.toNat := by
  have h0 := b0.isLt
  have h1 := b1.isLt
  have h256 : (256 : Word).toNat = 256 := rfl
  simp only [le16, BitVec.toNat_add, BitVec.toNat_mul, BitVec.toNat_setWidth, h256]
  omega

@[simp] theorem le16_lo_hi (w : Word) : le16 (lo w) (hi w) = w := by
  apply BitVec.eq_of_toNat_eq
  rw [le16_toNat, lo_toNat, hi_toNat]
  omega

@[simp] theorem lo_le16 (b0 b1 : Byte) : lo (le16 b0 b1) = b0 := by
  apply BitVec.eq_of_toNat_eq
  have h0 := b0.isLt
  rw [lo_toNat, le16_toNat]
  omega

@[simp] theorem hi_le16 (b0 b1 : Byte) : hi (le16 b0 b1) = b1 := by
  apply BitVec.eq_of_toNat_eq
  have h0 := b0.isLt
  rw [hi_toNat, le16_toNat]
  omega

theorem u16OfI16_toNat (v : Int16) :
    (u16OfI16 v).toNat = if 0 ≤ v.toInt then v.toInt.toNat else (v.toInt + 65536).toNat := by
  have h0 := v.le_toInt
  have h1 := v.toInt_lt
  unfold u16OfI16
  split <;> simp only [BitVec.toNat_ofInt] <;> omega

theorem i16OfU16_toInt (w : Word) :
    (i16OfU16 w).toInt = if w.toNat < 32768 then (w.toNat : Int) else w.toNat - 65536 := by
  have h := w.isLt
  unfold i16OfU16
  split
  · rw [Int16.toInt_ofInt_of_le] <;> omega
  · rw [Int16.toInt_ofInt_of_le] <;> omega

@[simp] theorem i16OfU16_u16OfI16 (v : Int16) : i16OfU16 (u16OfI16 v) = v := by
  have h0 := v.le_toInt
  have h1 := v.toInt_lt
  rw [← Int16.toInt_inj, i16OfU16_toInt, u16OfI16_toNat]
  split <;> split <;> omega

@[simp] theorem u16OfI16_i16OfU16 (w : Word) : u16OfI16 (i16OfU16 w) = w := by
  have h := w.isLt
  apply BitVec.eq_of_toNat_eq
  rw [u16OfI16_toNat, i16OfU16_toInt]
  split <;> split <;> omega

theorem putField_toNat (width pos : Nat) (v : Word) (h : width + pos ≤ 16) (hw : 0 < pos ∨ width < 16) :
    (putField width pos v).toNat = v.toNat % 2 ^ width * 2 ^ pos := by
  have hlt : 2 ^ width < 65536 := by
    have : width < 16 := by omega
    calc 2 ^ width < 2 ^ 16 := Nat.pow_lt_pow_right (by omega) this
      _ = 65536 := by norm_num
  have hm : v.toNat % 2 ^ width < 2 ^ width := Nat.mod_lt _ (by positivity)
  have hp : v.toNat % 2 ^ width * 2 ^ pos < 65536 := by
    calc v.toNat % 2 ^ width * 2 ^ pos < 2 ^ width * 2 ^ pos := by gcongr
      _ = 2 ^ (width + pos) := by rw [Nat.pow_add]
      _ ≤ 2 ^ 16 := Nat.pow_le_pow_right (by omega) h
      _ = 65536 := by norm_num
  simp only [putField, BitVec.toNat_shiftLeft, BitVec.toNat_umod, BitVec.toNat_ofNat, Nat.shiftLeft_eq]
  rw [Nat.mod_eq_of_lt hlt, Nat.mod_eq_of_lt hp]

theorem getField_toNat (width pos : Nat) (w : Word) (h : width < 16) :
    (getField width pos w).toNat = w.toNat / 2 ^ pos % 2 ^ width := by
  have hpos : 0 < 2 ^ width := by positivity
  have hlt : 2 ^ width < 65536 := by
    calc 2 ^ width < 2 ^ 16 := Nat.pow_lt_pow_right (by omega) h
      _ = 65536 := by norm_num
  simp only [getField, BitVec.toNat_setWidth, BitVec.toNat_and, BitVec.toNat_ushiftRight, BitVec.toNat_ofNat,
    Nat.shiftRight_eq_div_pow]
  rw [Nat.mod_eq_of_lt (show 2 ^ width - 1 < 2 ^ 16 by omega), Nat.and_two_pow_sub_one_eq_mod, Nat.mod_mod]

theorem imageOf_toList (v : PacketImage) : imageOf v.toList = some v := by
  have hl : v.toList.length = 10 := by simp
  simp only [imageOf, hl, dite_true, Option.some.injEq]
  rfl

theorem imageOf_eq_some {bs : List Byte} {v : PacketImage} (h : imageOf bs = some v) : bs = v.toList := by
  unfold imageOf at h
  split at h
  · cases h; simp [Vector.toList]
  · cases h

theorem imageOf_eq_none {bs : List Byte} (h : imageOf bs = none) : bs.length ≠ 10 := by
  unfold imageOf at h
  split at h
  · cases h
  · assumption

end Sys2Proof.Machine
end

