-- ==== Sys2Proof/Laws/Decode.lean ====
section
/-! SUPPORT. Each part of a call is read back as it was written. -/

namespace Sys2Proof

open Machine

theorem ofSelect_select (op : Op) : Op.ofSelect op.select = some op := by
  cases op <;> rfl

theorem selectOf_select (op : Op) : selectOf (op.select.setWidth 8) = op.select := by
  cases op <;> rfl

@[simp] theorem takeWord_bytesLe16 (w : Word) (rest : List Byte) :
    takeWord (bytesLe16 w ++ rest) = some (w, rest) := by
  simp [takeWord, bytesLe16]

@[simp] theorem takeI16_bytesLe16 (v : Int16) (rest : List Byte) :
    takeI16 (bytesLe16 (u16OfI16 v) ++ rest) = some (v, rest) := by
  simp [takeI16]

@[simp] theorem takeImage_toList (v : PacketImage) (rest : List Byte) :
    takeImage (v.toList ++ rest) = some (v, rest) := by
  have hl : v.toList.length = Config.pktLen := by simp [Config.pktLen]
  simp only [takeImage, ← hl, List.take_left, List.drop_left, imageOf_toList, Option.map_some]

@[simp] theorem takePacket_packetBytes (p : Packet) (rest : List Byte) :
    takePacket (packetBytes p ++ rest) = some (p, rest) := by
  simp [takePacket, packetBytes]

/-- A word is read from two bytes and no others. -/
theorem takeWord_eq_some {bs rest : List Byte} {w : Word} (h : takeWord bs = some (w, rest)) :
    bs = bytesLe16 w ++ rest := by
  unfold takeWord at h
  split at h
  · cases h; simp [bytesLe16]
  · cases h

theorem takeI16_eq_some {bs rest : List Byte} {v : Int16} (h : takeI16 bs = some (v, rest)) :
    bs = bytesLe16 (u16OfI16 v) ++ rest := by
  simp only [takeI16, Option.map_eq_some_iff, Prod.mk.injEq] at h
  obtain ⟨⟨w, r⟩, hw, rfl, rfl⟩ := h
  simpa using takeWord_eq_some hw

/-- A whole call is read just when nothing of it is left. -/
theorem decodeCall_eq_ok {bytes : List Byte} {i : Instr} : decodeCall bytes = .ok i ↔ decode bytes = .ok (i, []) := by
  unfold decodeCall
  split <;> simp_all

/-- What a call that is not read as an operation is, said once. -/
theorem decodeCall_eq_error {bytes : List Byte} {r : Reject} (h : decodeCall bytes = .error r) :
    decode bytes = .error r ∨
      ∃ i b rest, decode bytes = .ok (i, b :: rest) ∧ r = .oversizedCall (opOf i).select := by
  unfold decodeCall at h
  split at h
  · cases h
  · rename_i i b rest hd
    cases h
    exact .inr ⟨i, b, rest, hd, rfl⟩
  · rename_i hd
    cases h
    exact .inl hd

end Sys2Proof
end

