-- ==== Sys2Proof/Laws/State.lean ====
section
/-! SUPPORT. One lemma per field per update of the state, each true by definition. -/

namespace Sys2Proof.Machine

section
variable (s : State) (tx : TxHalf) (rx : RxHalf) (l : List Byte) (es : List Event) (o : Output) (b : Byte)

@[simp] theorem State.withTx_tx : (s.withTx tx).tx = tx := rfl
@[simp] theorem State.withTx_rx : (s.withTx tx).rx = s.rx := rfl
@[simp] theorem State.withTx_link : (s.withTx tx).link = s.link := rfl
@[simp] theorem State.withTx_pending : (s.withTx tx).pending = s.pending := rfl
@[simp] theorem State.withTx_out : (s.withTx tx).out = s.out := rfl

@[simp] theorem State.withRx_tx : (s.withRx rx).tx = s.tx := rfl
@[simp] theorem State.withRx_rx : (s.withRx rx).rx = rx := rfl
@[simp] theorem State.withRx_link : (s.withRx rx).link = s.link := rfl
@[simp] theorem State.withRx_pending : (s.withRx rx).pending = s.pending := rfl
@[simp] theorem State.withRx_out : (s.withRx rx).out = s.out := rfl

@[simp] theorem State.withLink_tx : (s.withLink l).tx = s.tx := rfl
@[simp] theorem State.withLink_rx : (s.withLink l).rx = s.rx := rfl
@[simp] theorem State.withLink_link : (s.withLink l).link = l := rfl
@[simp] theorem State.withLink_pending : (s.withLink l).pending = s.pending := rfl
@[simp] theorem State.withLink_out : (s.withLink l).out = s.out := rfl

@[simp] theorem State.withPending_tx : (s.withPending es).tx = s.tx := rfl
@[simp] theorem State.withPending_rx : (s.withPending es).rx = s.rx := rfl
@[simp] theorem State.withPending_link : (s.withPending es).link = s.link := rfl
@[simp] theorem State.withPending_pending : (s.withPending es).pending = es := rfl
@[simp] theorem State.withPending_out : (s.withPending es).out = s.out := rfl

@[simp] theorem State.returns_tx : (s.returns o).tx = s.tx := rfl
@[simp] theorem State.returns_rx : (s.returns o).rx = s.rx := rfl
@[simp] theorem State.returns_link : (s.returns o).link = s.link := rfl
@[simp] theorem State.returns_pending : (s.returns o).pending = s.pending := rfl
@[simp] theorem State.returns_out : (s.returns o).out = o := rfl

@[simp] theorem RxHalf.push_dstate : (rx.push b).dstate = rx.dstate := rfl
@[simp] theorem RxHalf.push_rxbuf : (rx.push b).rxbuf = rx.rxbuf ++ [b] := rfl
@[simp] theorem TxHalf.advance_seqcnt : tx.advance.seqcnt = tx.seqcnt + 1 := rfl

end

end Sys2Proof.Machine
end

