-- ==== Sys2Proof/Laws/FrameDecoder.lean ====
section
/-! SUPPORT. Everything the operations on the RX half can do, said once: `RX_PUSH`, `DEC_POLL` and the transport's step. -/

namespace Sys2Proof.Machine

theorem DState.legal_awaitingBody (n : Word) : (DState.awaitingBody n).legal = true ↔ n = 10 :=
  ⟨fun h => of_decide_eq_true h, fun h => decide_eq_true h⟩

theorem hasRoom_bounded (above n : Nat) : hasRoom (.bounded above) n = true ↔ n < 10 + above := by
  simp [hasRoom]; omega

theorem hasRoom_unbounded (n : Nat) : hasRoom .unbounded n = true := by
  simp [hasRoom]

theorem hasRoom_of_lt_ten (depth : RxDepth) {n : Nat} (h : n < 10) : hasRoom depth n = true := by
  simp [hasRoom, h]

theorem withinDepth_of_hasRoom {depth : RxDepth} {n : Nat} (h : hasRoom depth n = true) :
    withinDepth depth (n + 1) = true := by
  cases depth with
  | bounded above => rw [hasRoom_bounded] at h; simp [withinDepth]; omega
  | unbounded => rfl

theorem withinDepth_mono {depth : RxDepth} {n m : Nat} (hle : m ≤ n) (h : withinDepth depth n = true) :
    withinDepth depth m = true := by
  cases depth with
  | bounded above => simp [withinDepth] at *; omega
  | unbounded => rfl

theorem pushByte_of_room {depth : RxDepth} {b : Byte} {s : State} (h : hasRoom depth s.rx.avail = true) :
    pushByte depth b s = .next ((s.withRx (s.rx.push b)).returns .none) := by
  simp [pushByte, h]

theorem pushByte_of_full {depth : RxDepth} {b : Byte} {s : State} (h : hasRoom depth s.rx.avail = false) :
    pushByte depth b s = .fault .rxBufFull := by
  simp [pushByte, h]

/-- A push that has a step had room, and did this. -/
theorem pushByte_cases {depth : RxDepth} {b : Byte} {s t : State} (h : pushByte depth b s = .next t) :
    hasRoom depth s.rx.avail = true ∧ t = (s.withRx (s.rx.push b)).returns .none := by
  unfold pushByte at h
  split at h
  · cases h; exact ⟨‹_›, rfl⟩
  · cases h

/-- The three things a poll in `AwaitingLength` does. -/
theorem pollLength_cases (s : State) :
    (s.rx.rxbuf.length < 2 ∧ pollLength s = notYet s) ∨
    (∃ b0 b1 rest, s.rx.rxbuf = b0 :: b1 :: rest ∧ le16 b0 b1 = Config.expectedLen ∧
      pollLength s = acceptLength Config.expectedLen rest s) ∨
    (∃ b0 b1 rest, s.rx.rxbuf = b0 :: b1 :: rest ∧ le16 b0 b1 ≠ Config.expectedLen ∧
      pollLength s = reportFramingError (le16 b0 b1) rest s) := by
  unfold pollLength
  split
  · rename_i b0 b1 rest hbuf
    by_cases hlen : le16 b0 b1 = Config.expectedLen
    · exact .inr (.inl ⟨b0, b1, rest, hbuf, hlen, by simp [hlen]⟩)
    · exact .inr (.inr ⟨b0, b1, rest, hbuf, hlen, by simp [hlen]⟩)
  · rename_i hbuf; exact .inl ⟨by simp [hbuf], rfl⟩
  · rename_i hbuf; exact .inl ⟨by simp [hbuf], rfl⟩

/-- The three things a poll in `AwaitingBody(n)` does. -/
theorem pollBody_cases (n : Word) (s : State) :
    (s.rx.rxbuf.length < n.toNat ∧ pollBody n s = .next (notYet s)) ∨
    (∃ image rest, n.toNat = 10 ∧ s.rx.rxbuf = Vector.toList (n := 10) image ++ rest ∧
      pollBody n s = .next (emitPacket (pktDes image) rest s)) ∨
    (n.toNat ≤ s.rx.rxbuf.length ∧ n.toNat ≠ 10 ∧ pollBody n s = .refused (.wrongSizedBody n)) := by
  by_cases hlt : s.rx.rxbuf.length < n.toNat
  · exact .inl ⟨hlt, if_pos hlt⟩
  · have hlen : (s.rx.rxbuf.take n.toNat).length = n.toNat := by simp; omega
    have hbody : pollBody n s = match imageOf (s.rx.rxbuf.take n.toNat) with
        | some image => .next (emitPacket (pktDes image) (s.rx.rxbuf.drop n.toNat) s)
        | none => .refused (.wrongSizedBody n) := if_neg hlt
    rw [hbody]
    cases himg : imageOf (s.rx.rxbuf.take n.toNat) with
    | some image =>
      have hl := imageOf_eq_some himg
      refine .inr (.inl ⟨image, s.rx.rxbuf.drop n.toNat, ?_, ?_, rfl⟩)
      · rw [← hlen, hl]; simp
      · rw [← hl, List.take_append_drop]
    | none =>
      have := imageOf_eq_none himg
      exact .inr (.inr ⟨by omega, by omega, rfl⟩)

/-- Everything a poll that answers a next state can have done (R132 to R136). -/
theorem execDecPoll_cases {s t : State} (h : execDecPoll s = .next t) :
    (t = notYet s ∧ ((s.rx.dstate = .awaitingLength ∧ s.rx.rxbuf.length < 2) ∨
      ∃ n, s.rx.dstate = .awaitingBody n ∧ s.rx.rxbuf.length < n.toNat)) ∨
    (∃ b0 b1 rest, s.rx.dstate = .awaitingLength ∧ s.rx.rxbuf = b0 :: b1 :: rest ∧
      le16 b0 b1 = Config.expectedLen ∧ t = acceptLength Config.expectedLen rest s) ∨
    (∃ b0 b1 rest, s.rx.dstate = .awaitingLength ∧ s.rx.rxbuf = b0 :: b1 :: rest ∧
      le16 b0 b1 ≠ Config.expectedLen ∧ t = reportFramingError (le16 b0 b1) rest s) ∨
    (∃ n image rest, s.rx.dstate = .awaitingBody n ∧ n.toNat = 10 ∧
      s.rx.rxbuf = Vector.toList (n := 10) image ++ rest ∧ t = emitPacket (pktDes image) rest s) := by
  unfold execDecPoll at h
  split at h
  · rename_i hd
    cases h
    rcases pollLength_cases s with ⟨hl, he⟩ | ⟨b0, b1, rest, hb, hl, he⟩ | ⟨b0, b1, rest, hb, hl, he⟩
    · exact .inl ⟨he, .inl ⟨hd, hl⟩⟩
    · exact .inr (.inl ⟨b0, b1, rest, hd, hb, hl, he⟩)
    · exact .inr (.inr (.inl ⟨b0, b1, rest, hd, hb, hl, he⟩))
  · rename_i n hd
    rcases pollBody_cases n s with ⟨hl, he⟩ | ⟨image, rest, hn, hb, he⟩ | ⟨_, _, he⟩
    · rw [he] at h; cases h; exact .inl ⟨rfl, .inr ⟨n, hd, hl⟩⟩
    · rw [he] at h; cases h; exact .inr (.inr (.inr ⟨n, image, rest, hd, hn, hb, rfl⟩))
    · rw [he] at h; cases h

/-- A poll does not fault, and refuses only on a body of another size, where `DSTATE` is in no legal form. -/
theorem execDecPoll_of_legal {s : State} (h : s.rx.dstate.legal = true) : ∃ t, execDecPoll s = .next t := by
  unfold execDecPoll
  split
  · exact ⟨_, rfl⟩
  · rename_i n hd
    have hn : n.toNat = 10 := by
      rw [hd] at h
      simp only [DState.legal, decide_eq_true_eq] at h
      rw [h]; rfl
    rcases pollBody_cases n s with ⟨_, he⟩ | ⟨_, _, _, _, he⟩ | ⟨_, hne, _⟩
    · exact ⟨_, he⟩
    · exact ⟨_, he⟩
    · exact absurd hn hne

/-- Everything the transport's step can do: it always answers a next state. -/
theorem deliverByte_cases (depth : RxDepth) (s : State) :
    (deliverByte depth s = .next (s.returns .none) ∧ (s.link = [] ∨ hasRoom depth s.rx.avail = false)) ∨
    (∃ b rest, s.link = b :: rest ∧ hasRoom depth s.rx.avail = true ∧
      deliverByte depth s = .next (((s.withLink rest).withRx (s.rx.push b)).returns .none)) := by
  unfold deliverByte
  split
  · exact .inl ⟨rfl, .inl ‹_›⟩
  · rename_i b rest hl
    by_cases hroom : hasRoom depth s.rx.avail = true
    · refine .inr ⟨b, rest, hl, hroom, ?_⟩
      rw [if_pos hroom, pushByte_of_room (by simpa using hroom)]
      rfl
    · rw [if_neg hroom]
      exact .inl ⟨rfl, .inr (by simpa using hroom)⟩

end Sys2Proof.Machine
end

