-- ==== Sys2Proof/Laws/PerInstr.lean ====
section
/-! SUPPORT. Statements made of every instruction, one lemma per constructor. -/

namespace Sys2Proof.Laws.CallFits

/-- The call of an instruction has a select byte and its operation's number of operand bytes, and is no longer than the
longest call. -/
def Statement (i : Instr) : Prop :=
  (encode i).length = 1 + (opOf i).operandCount ∧ 1 ≤ (encode i).length ∧ (encode i).length ≤ longestCall

theorem pidEnc (version ptype shf apid : Word) : Statement (.pidEnc version ptype shf apid) := by
  simp [Statement, encode, opOf, Op.operandCount, operandBytes, Machine.bytesLe16, longestCall]

theorem pidDec (w : Word) : Statement (.pidDec w) := by
  simp [Statement, encode, opOf, Op.operandCount, operandBytes, Machine.bytesLe16, longestCall]

theorem seqEnc (seqflags count : Word) : Statement (.seqEnc seqflags count) := by
  simp [Statement, encode, opOf, Op.operandCount, operandBytes, Machine.bytesLe16, longestCall]

theorem seqDec (w : Word) : Statement (.seqDec w) := by
  simp [Statement, encode, opOf, Op.operandCount, operandBytes, Machine.bytesLe16, longestCall]

theorem pktSer (p : Packet) : Statement (.pktSer p) := by
  simp [Statement, encode, opOf, Op.operandCount, operandBytes, packetBytes, Machine.bytesLe16, longestCall]

theorem pktDes (bytes : PacketImage) : Statement (.pktDes bytes) := by
  simp [Statement, encode, opOf, Op.operandCount, operandBytes, longestCall]

theorem tmBuild (version ptype shf apid seqflags : Word) (temp : Int16) (hum : Word) :
    Statement (.tmBuild version ptype shf apid seqflags temp hum) := by
  simp [Statement, encode, opOf, Op.operandCount, operandBytes, Machine.bytesLe16, longestCall]

theorem frmEnc (p : Packet) : Statement (.frmEnc p) := by
  simp [Statement, encode, opOf, Op.operandCount, operandBytes, packetBytes, Machine.bytesLe16, longestCall]

theorem rxPush (b : Byte) : Statement (.rxPush b) := by
  simp [Statement, encode, opOf, Op.operandCount, operandBytes, longestCall]

theorem decPoll : Statement .decPoll := by
  simp [Statement, encode, opOf, Op.operandCount, operandBytes, longestCall]

theorem resetTx : Statement .resetTx := by
  simp [Statement, encode, opOf, Op.operandCount, operandBytes, longestCall]

theorem resetRx : Statement .resetRx := by
  simp [Statement, encode, opOf, Op.operandCount, operandBytes, longestCall]

end Sys2Proof.Laws.CallFits
end

