-- ==== Sys2Proof/Laws/Programs.lean ====
section
/-! SUPPORT. Taking sequences apart: what it takes for a sequence to answer a value. -/

namespace Sys2Proof.Machine

section
variable {α β : Type} (f : α → Host.Outcome β Fault Refusal)

@[simp] theorem andThen_next (a : α) : andThen (.next a) f = f a := rfl
@[simp] theorem andThen_fault (r : Fault) : andThen (.fault r) f = .fault r := rfl
@[simp] theorem andThen_refused (r : Refusal) : andThen (.refused r) f = .refused r := rfl

theorem andThen_eq_next {f : α → Host.Outcome β Fault Refusal} {o : Host.Outcome α Fault Refusal} {b : β} :
    andThen o f = .next b ↔ ∃ a, o = .next a ∧ f a = .next b := by
  cases o <;> simp

end

@[simp] theorem runProgram_nil (s : State) : runProgram [] s = .next ([], s) := rfl

theorem runProgram_cons_eq_next {i : Instr} {is : List Instr} {s t : State} {outs : List Output} :
    runProgram (i :: is) s = .next (outs, t) ↔
      ∃ s' rest, exec i s = .next s' ∧ runProgram is s' = .next (rest, t) ∧ outs = s'.out :: rest := by
  simp only [runProgram, andThen_eq_next, Host.Outcome.next.injEq, Prod.mk.injEq]
  constructor
  · rintro ⟨s', h1, ⟨rest, u⟩, h2, h3, h4⟩
    exact ⟨s', rest, h1, by rw [h2, ← h4], h3.symm⟩
  · rintro ⟨s', rest, h1, h2, h3⟩
    exact ⟨s', h1, (rest, t), h2, h3.symm, rfl⟩

@[simp] theorem runSteps_zero (s : State) : runSteps 0 s = .next ([], s) := rfl

theorem runSteps_succ_eq_next {k : Nat} {s t : State} {outs : List Output} :
    runSteps (k + 1) s = .next (outs, t) ↔
      ∃ s' rest, step s = .next s' ∧ runSteps k s' = .next (rest, t) ∧ outs = s'.out :: rest := by
  simp only [runSteps, andThen_eq_next, Host.Outcome.next.injEq, Prod.mk.injEq]
  constructor
  · rintro ⟨s', h1, ⟨rest, u⟩, h2, h3, h4⟩
    exact ⟨s', rest, h1, by rw [h2, ← h4], h3.symm⟩
  · rintro ⟨s', rest, h1, h2, h3⟩
    exact ⟨s', h1, (rest, t), h2, h3.symm, rfl⟩

/-- One poll more of a drain, where the poll makes progress. -/
theorem drainWith_progress {fuel : Nat} {s s' : State} {r : PollResult} (h : exec .decPoll s = .next s')
    (ho : s'.out = .poll r) (hp : r.isProgress = true) :
    drainWith (fuel + 1) s = andThen (drainWith fuel s') fun q => .next (r :: q.1, q.2) := by
  simp [drainWith, h, ho, hp]

/-- The poll that ends a drain. -/
theorem drainWith_notYet {fuel : Nat} {s s' : State} (h : exec .decPoll s = .next s')
    (ho : s'.out = .poll .notYet) : drainWith (fuel + 1) s = .next ([], s') := by
  simp [drainWith, h, ho, PollResult.isProgress]

end Sys2Proof.Machine
end

