-- ==== Sys2Proof/Tests/Slice0.lean ====
section
/-! SUPPORT. The model's own tests, expected results from `95_test_vectors.md` and from hand calculation with the rules, and
for each statement with hypotheses a concrete state and operands that meet them. -/

namespace Sys2Proof.Tests

open Machine

/-- The outcome is this next state, or whatever else the part of a run answers. -/
def nextIs {α : Type} [DecidableEq α] (o : Host.Outcome α Fault Refusal) (t : α) : Bool :=
  match o with
  | .next s => decide (s = t)
  | _ => false

theorem eq_next {α : Type} [DecidableEq α] {o : Host.Outcome α Fault Refusal} {t : α} (h : nextIs o t = true) :
    o = .next t := by
  cases o with
  | next s => exact congrArg _ (of_decide_eq_true h)
  | fault f => exact absurd h Bool.false_ne_true
  | refused r => exact absurd h Bool.false_ne_true

/-- The outcome is this fault. -/
def faultIs (o : Host.Outcome State Fault Refusal) (f : Fault) : Bool :=
  match o with
  | .fault g => decide (g = f)
  | _ => false

/-- The outcome is this refusal. -/
def refusedIs (o : Host.Outcome State Fault Refusal) (r : Refusal) : Bool :=
  match o with
  | .refused q => decide (q = r)
  | _ => false

/-- A state after reset but for its RX half. -/
def withRx (d : DState) (bs : List Byte) : State := { State.reset with rx := { dstate := d, rxbuf := bs } }

theorem withRx_rxbuf (d : DState) (bs : List Byte) : (withRx d bs).rx.rxbuf = bs := rfl

/-- A state after reset but for its counter. -/
def withCount (n : BitVec 14) : State := { State.reset with tx := { seqcnt := n } }

/-- A state after reset but for its schedule. -/
def withEvents (es : List Event) : State := { State.reset with pending := es }

/-- The Packet of the worked example (doc00 §8). -/
def p0 : Packet := ⟨0x0801, 0xC000, 0x0003, 2345, 6012⟩

/-- Its image and frame, as the worked example has them. -/
def image0 : PacketImage := #v[0x01, 0x08, 0x00, 0xC0, 0x03, 0x00, 0x29, 0x09, 0x7C, 0x17]

def frame0 : FrameImage := #v[0x0A, 0x00, 0x01, 0x08, 0x00, 0xC0, 0x03, 0x00, 0x29, 0x09, 0x7C, 0x17]

/-! ### WellFormed: one ill-formed term for each check -/

theorem test_wf_refuses_wide_version : WellFormed (.pidEnc 8 0 0 0) = false := by decide
theorem test_wf_refuses_wide_ptype : WellFormed (.pidEnc 0 2 0 0) = false := by decide
theorem test_wf_refuses_wide_shf : WellFormed (.pidEnc 0 0 2 0) = false := by decide
theorem test_wf_refuses_wide_apid : WellFormed (.pidEnc 0 0 0 2048) = false := by decide
theorem test_wf_refuses_wide_seqflags : WellFormed (.seqEnc 4 0) = false := by decide
theorem test_wf_refuses_wide_count : WellFormed (.seqEnc 0 16384) = false := by decide
theorem test_wf_build_refuses_wide_version : WellFormed (.tmBuild 8 0 0 0 0 0 0) = false := by decide
theorem test_wf_build_refuses_wide_ptype : WellFormed (.tmBuild 0 2 0 0 0 0 0) = false := by decide
theorem test_wf_build_refuses_wide_shf : WellFormed (.tmBuild 0 0 2 0 0 0 0) = false := by decide
theorem test_wf_build_refuses_wide_apid : WellFormed (.tmBuild 0 0 0 2048 0 0 0) = false := by decide
theorem test_wf_build_refuses_wide_seqflags : WellFormed (.tmBuild 0 0 0 0 4 0 0) = false := by decide
theorem test_wf_accepts_the_maxima :
    WellFormed (.pidEnc 7 1 1 2047) = true ∧ WellFormed (.seqEnc 3 16383) = true ∧
      WellFormed (.tmBuild 7 1 1 2047 3 (-1) 65535) = true := by decide

/-! ### Decode: calls written out from the select codes (R74) and the layout of log entry 1 -/

/-- Read one call and drop what follows it. -/
def read (bs : List Byte) : Option Instr :=
  match decode bs with
  | .ok (i, _) => some i
  | .error _ => none

theorem test_decode_pidEnc : read [0x00, 0x05, 0x00, 0x01, 0x00, 0x00, 0x00, 0xAB, 0x02] = some (.pidEnc 5 1 0 683) := by decide
theorem test_decode_pidDec : read [0x01, 0x01, 0x08] = some (.pidDec 0x0801) := by decide
theorem test_decode_seqEnc : read [0x02, 0x03, 0x00, 0x0A, 0x00] = some (.seqEnc 3 10) := by decide
theorem test_decode_seqDec : read [0x03, 0x0A, 0xC0] = some (.seqDec 0xC00A) := by decide
theorem test_decode_pktSer :
    read [0x04, 0x01, 0x08, 0x01, 0xC0, 0x03, 0x00, 0x0C, 0xFE, 0x10, 0x27] =
      some (.pktSer ⟨0x0801, 0xC001, 3, -500, 10000⟩) := by decide
theorem test_decode_pktDes :
    read [0x05, 0x01, 0x08, 0x00, 0xC0, 0x03, 0x00, 0x29, 0x09, 0x7C, 0x17] = some (.pktDes image0) := by decide
theorem test_decode_tmBuild :
    read [0x06, 0x07, 0x00, 0x01, 0x00, 0x00, 0x00, 0xFF, 0x07, 0x02, 0x00, 0xFF, 0xFF, 0x34, 0x12] =
      some (.tmBuild 7 1 0 2047 2 (-1) 0x1234) := by decide
theorem test_decode_frmEnc :
    read [0x07, 0x01, 0x08, 0x00, 0xC0, 0x03, 0x00, 0x29, 0x09, 0x7C, 0x17] = some (.frmEnc p0) := by decide
theorem test_decode_rxPush : read [0x08, 0xA5] = some (.rxPush 0xA5) := by decide
theorem test_decode_decPoll : read [0x09] = some .decPoll := by decide
theorem test_decode_resetTx : read [0x0A] = some .resetTx := by decide
theorem test_decode_resetRx : read [0x0B] = some .resetRx := by decide
theorem test_decode_refuses_codes_12_to_15 :
    read [0x0C] = none ∧ read [0x0D] = none ∧ read [0x0E] = none ∧ read [0x0F] = none := by decide
theorem test_decode_refuses_a_nine_byte_image :
    read [0x05, 0x01, 0x08, 0x00, 0xC0, 0x03, 0x00, 0x29, 0x09, 0x7C] = none := by decide
theorem test_call_refuses_an_eleven_byte_image :
    refusedIs (step (withEvents [.call [0x05, 0x01, 0x08, 0x00, 0xC0, 0x03, 0x00, 0x29, 0x09, 0x7C, 0x17, 0x00]]))
      (.oversizedCall 5) = true := by decide
theorem test_call_refuses_a_second_byte_to_push :
    refusedIs (step (withEvents [.call [0x08, 0x0A, 0x00]])) (.oversizedCall 8) = true := by decide
theorem test_table_word_refuses_surplus_bits : decodeTableWord 24 0x010A08 = none := by decide
theorem test_select_codes_differ :
    ([Op.pidEnc, .pidDec, .seqEnc, .seqDec, .pktSer, .pktDes, .tmBuild, .frmEnc, .rxPush, .decPoll, .resetTx,
      .resetRx].map Op.select).Nodup := by decide

/-! ### One step from reset for each row of the table -/

/-- The table's word of a row, all operand bytes zero, is run by the first step after reset. -/
def firstStep (w : Nat) (t : State) : Bool := nextIs (step (State.reset.withFetchWord 8 w)) t

theorem test_first_steps_of_the_codec :
    firstStep 0 (State.reset.returns (.word 0)) = true ∧ firstStep 1 (State.reset.returns (.pidFields ⟨0, 0, 0, 0⟩)) = true ∧
    firstStep 2 (State.reset.returns (.word 0)) = true ∧ firstStep 3 (State.reset.returns (.seqFields ⟨0, 0⟩)) = true := by
  decide
theorem test_first_steps_of_the_packet_model :
    firstStep 4 (State.reset.returns (.packetImage #v[0, 0, 0, 0, 0, 0, 0, 0, 0, 0])) = true ∧
    firstStep 5 (State.reset.returns (.packet ⟨0, 0, 0, 0, 0⟩)) = true := by decide
theorem test_first_steps_of_the_encoders :
    firstStep 6 ((withCount 1).returns (.packet ⟨0, 0, 3, 0, 0⟩)) = true ∧
    firstStep 7 (State.reset.returns (.frameImage #v[0x0A, 0, 0, 0, 0, 0, 0, 0, 0, 0, 0, 0])) = true := by decide
theorem test_first_steps_of_the_decoder_and_resets :
    firstStep 8 (withRx .awaitingLength [0]) = true ∧ firstStep 9 (State.reset.returns (.poll .notYet)) = true ∧
    firstStep 10 State.reset = true ∧ firstStep 11 State.reset = true := by decide
theorem test_first_step_refuses_code_12 :
    refusedIs (step (State.reset.withFetchWord 8 12)) (.unassignedSelect 12) = true := by decide

/-! ### Meanings -/

/-- `95_test_vectors.md` section 3, with an over-wide operand for each field. -/
theorem test_pidEnc : pidEnc 5 1 0 683 = 0xB2AB ∧ pidEnc 2 0 1 291 = 0x4923 ∧ pidEnc 7 1 1 2047 = 0xFFFF := by decide
theorem test_pidEnc_truncates :
    pidEnc 9 0 0 0 = 0x2000 ∧ pidEnc 0 2 0 0 = 0x0000 ∧ pidEnc 0 0 3 0 = 0x0800 ∧ pidEnc 0 0 0 2049 = 0x0001 := by decide
theorem test_pidDec : pidDec 0xB2AB = ⟨5, 1, 0, 683⟩ ∧ pidDec 0x4923 = ⟨2, 0, 1, 291⟩ := by decide
/-- The two words the original's fault gets wrong (R97). -/
theorem test_pidDec_single_bits : pidDec 0x1000 = ⟨0, 1, 0, 0⟩ ∧ pidDec 0x0800 = ⟨0, 0, 1, 0⟩ := by decide
theorem test_seqEnc : seqEnc 2 1 = 0x8001 ∧ seqEnc 5 16385 = 0x4001 ∧ seqEnc 0 16384 = 0x0000 := by decide
theorem test_seqDec : seqDec 0xC00A = ⟨3, 10⟩ ∧ seqDec 0x7FFF = ⟨1, 16383⟩ := by decide

/-- Section 4: a negative temperature, and a `data_length` whose upper bits are carried. -/
theorem test_pktSer :
    pktSer ⟨0x0801, 0xC001, 3, -500, 10000⟩ = #v[0x01, 0x08, 0x01, 0xC0, 0x03, 0x00, 0x0C, 0xFE, 0x10, 0x27] ∧
    pktSer ⟨0x000A, 0x000A, 0xC003, 10, 10⟩ = #v[0x0A, 0x00, 0x0A, 0x00, 0x03, 0xC0, 0x0A, 0x00, 0x0A, 0x00] := by decide
theorem test_pktSer_lowest_temperature :
    pktSer ⟨0x0801, 0xC002, 3, -32768, 0⟩ = #v[0x01, 0x08, 0x02, 0xC0, 0x03, 0x00, 0x00, 0x80, 0x00, 0x00] := by decide
theorem test_pktDes :
    pktDes #v[0x11, 0x22, 0x33, 0x44, 0x55, 0x66, 0x77, 0x88, 0x0A, 0x00] = ⟨0x2211, 0x4433, 0x6655, -30601, 10⟩ := by
  decide

/-- Section 5: the wrap, and operands that do not disturb the count. -/
theorem test_tmBuild_wraps :
    nextIs (exec (.tmBuild 0 0 1 1 3 0 0) (withCount 16383))
      ((withCount 0).returns (.packet ⟨0x0801, 0xFFFF, 3, 0, 0⟩)) = true := by decide
theorem test_tmBuild_other_operands :
    nextIs (exec (.tmBuild 7 1 0 2047 0 (-1) 65535) (withCount 5))
      ((withCount 6).returns (.packet ⟨0xF7FF, 0x0005, 3, -1, 65535⟩)) = true := by decide

/-- Section 6: the worked example's frame. -/
theorem test_frmEnc : frmEnc p0 = frame0 := by decide

/-- Section 7. -/
theorem test_rxPush :
    nextIs (exec (.rxPush 0x00) (withRx .awaitingLength [0x0A])) (withRx .awaitingLength [0x0A, 0x00]) = true := by decide
theorem test_rxPush_full :
    faultIs (pushByte (.bounded 0) 0xFF (withRx .awaitingLength [1, 2, 3, 4, 5, 6, 7, 8, 9, 10])) .rxBufFull = true := by
  decide
theorem test_decPoll_big_endian_ten_is_an_error :
    nextIs (exec .decPoll (withRx .awaitingLength [0x00, 0x0A]))
      ((withRx .awaitingLength []).returns (.poll (.framingError 0x0A00))) = true := by decide
theorem test_decPoll_body_is_never_a_length :
    nextIs (exec .decPoll (withRx (.awaitingBody 10) [0x0A, 0, 0x0A, 0, 0x0A, 0, 0x0A, 0, 0x0A, 0, 0xFF]))
      ((withRx .awaitingLength [0xFF]).returns (.poll (.packet ⟨0x000A, 0x000A, 0x000A, 10, 10⟩))) = true := by decide
theorem test_resetTx : nextIs (exec .resetTx (withCount 37)) State.reset = true := by decide
theorem test_resetRx : nextIs (exec .resetRx (withRx (.awaitingBody 10) [0x01, 0x08])) State.reset = true := by decide

/-! ### Transport and the schedule -/

theorem test_write_then_first_byte :
    nextIs (step { State.reset with pending := [.write frame0] }) { State.reset with link := frame0.toList } = true := by
  decide
theorem test_deliver :
    nextIs (step { State.reset with link := [0x0A, 0x00], pending := [.deliver] })
      { (withRx .awaitingLength [0x0A]) with link := [0x00] } = true := by decide
/-- `95_test_vectors.md` section 10, Program 4, step 7: with the buffer full the byte stays in the link. -/
theorem test_deliver_held_off :
    nextIs (deliverByte (.bounded 0) { (withRx .awaitingLength [1, 2, 3, 4, 5, 6, 7, 8, 9, 10]) with link := [0x55] })
      { (withRx .awaitingLength [1, 2, 3, 4, 5, 6, 7, 8, 9, 10]) with link := [0x55] } = true := by decide
theorem test_idle_step_returns_nothing :
    nextIs (step (State.reset.returns (.poll .lenOk))) State.reset = true := by decide

/-! ### Witnesses: for each statement with hypotheses, concrete values that meet all of them, clause by clause -/

/-- The ten bytes that fill the smallest buffer. -/
def tenBytes : List Byte := [1, 2, 3, 4, 5, 6, 7, 8, 9, 10]

theorem witness_UnassignedSelectCodesAreRefused :
    (withEvents [.call [0x0C]]).pending = .call (0x0C :: []) :: [] ∧ 12 ≤ (0x0C : Byte).toNat % 16 ∧
    (withEvents [.call [0xFF, 1]]).pending = .call (0xFF :: [1]) :: [] ∧ 12 ≤ (0xFF : Byte).toNat % 16 := by decide

theorem witness_EncodeAfterDecodeGivesTheCallBack :
    read [0xF9] = some .decPoll ∧ decode (0xF9 :: [7]) = .ok (.decPoll, [7]) ∧
    decode (0x08 :: [0x0A]) = .ok (.rxPush 0x0A, []) := ⟨by decide, rfl, rfl⟩

theorem witness_CallsWithTooFewOperandBytesAreRefused :
    9 < (operandBytes (.pktDes image0)).length ∧ 0 < (operandBytes (.rxPush 0)).length ∧
    13 < (operandBytes (.tmBuild 0 0 0 0 0 0 0)).length := by decide

theorem witness_StepRunsTheDecodedOperation_call :
    (withEvents [.call [0x08, 0x0A], .deliver]).pending = .call [0x08, 0x0A] :: [.deliver] ∧
    decodeCall [0x08, 0x0A] = .ok (.rxPush 0x0A) := ⟨rfl, rfl⟩
theorem witness_StepRunsTheDecodedOperation_deliver : (withEvents [.deliver]).pending = .deliver :: [] := rfl
theorem witness_StepRunsTheDecodedOperation_idle : State.reset.pending = [] := rfl

theorem witness_FetchWordRunsTheTableWord :
    decodeTableWord 16 0x0A08 = some (.rxPush 0x0A) ∧ decodeTableWord 8 0xB = some .resetRx := by decide

theorem witness_PidEncPacksTheMaskedFields :
    WellFormed (.pidEnc 7 1 1 2047) = true ∧
    exec (.pidEnc 7 1 1 2047) State.reset = exec (.pidEnc 7 1 1 2047) State.reset := ⟨by decide, rfl⟩
theorem witness_PidDecTakesEachField :
    exec (.pidDec 0xB2AB) State.reset = .next (State.reset.returns (.pidFields ⟨5, 1, 0, 683⟩)) ∧
    (State.reset.returns (.pidFields ⟨5, 1, 0, 683⟩)).out = .pidFields ⟨5, 1, 0, 683⟩ :=
  ⟨eq_next (by decide), rfl⟩
theorem witness_SeqEncPacksTheMaskedFields :
    WellFormed (.seqEnc 3 16383) = true ∧ exec (.seqEnc 3 16383) State.reset = exec (.seqEnc 3 16383) State.reset :=
  ⟨by decide, rfl⟩
theorem witness_SeqDecTakesEachField :
    exec (.seqDec 0xC00A) State.reset = .next (State.reset.returns (.seqFields ⟨3, 10⟩)) ∧
    (State.reset.returns (.seqFields ⟨3, 10⟩)).out = .seqFields ⟨3, 10⟩ := ⟨eq_next (by decide), rfl⟩
theorem witness_HeaderFieldsSurviveTheRoundTrip_pid :
    exec (.pidEnc 5 1 0 683) State.reset = .next (State.reset.returns (.word 0xB2AB)) ∧
    (State.reset.returns (.word 0xB2AB)).out = .word 0xB2AB ∧ WellFormed (.pidEnc 5 1 0 683) = true :=
  ⟨eq_next (by decide), rfl, by decide⟩
theorem witness_HeaderFieldsSurviveTheRoundTrip_seq :
    exec (.seqEnc 3 10) State.reset = .next (State.reset.returns (.word 0xC00A)) ∧
    (State.reset.returns (.word 0xC00A)).out = .word 0xC00A ∧ WellFormed (.seqEnc 3 10) = true :=
  ⟨eq_next (by decide), rfl, by decide⟩

theorem witness_OnlyTmBuildAndResetTxChangeTheCounter_advance :
    opOf (.tmBuild 0 0 1 1 3 0 0) = .tmBuild ∧
    exec (.tmBuild 0 0 1 1 3 0 0) (withCount 16382) =
      .next ((withCount 16383).returns (.packet ⟨0x0801, 0xFFFE, 3, 0, 0⟩)) ∧
    (withCount 16382).tx.seqcnt.toNat < 16383 := ⟨rfl, eq_next (by decide), by decide⟩
theorem witness_OnlyTmBuildAndResetTxChangeTheCounter_wrap :
    exec (.tmBuild 0 0 1 1 3 0 0) (withCount 16383) =
      .next ((withCount 0).returns (.packet ⟨0x0801, 0xFFFF, 3, 0, 0⟩)) ∧
    (withCount 16383).tx.seqcnt.toNat = 16383 := ⟨eq_next (by decide), by decide⟩
theorem witness_OnlyTmBuildAndResetTxChangeTheCounter_others :
    opOf .resetRx ≠ .tmBuild ∧ opOf .resetRx ≠ .resetTx ∧ exec .resetRx State.reset = .next State.reset :=
  ⟨by decide, by decide, eq_next (by decide)⟩
theorem witness_TheKthBuildCarriesTheCountK :
    State.reset.tx = State.reset.tx ∧
    (∀ i ∈ [Instr.tmBuild 0 0 1 1 3 0 0, .resetRx, .tmBuild 0 0 1 1 3 0 0], opOf i ≠ .resetTx) ∧
    runProgram [.tmBuild 0 0 1 1 3 0 0, .resetRx, .tmBuild 0 0 1 1 3 0 0] State.reset =
      .next ([.packet ⟨0x0801, 0xC000, 3, 0, 0⟩, .none, .packet ⟨0x0801, 0xC001, 3, 0, 0⟩],
        (withCount 2).returns (.packet ⟨0x0801, 0xC001, 3, 0, 0⟩)) :=
  ⟨rfl, by decide, eq_next (by decide)⟩
theorem witness_TheKthBuildCarriesTheCountK_runs :
    ∀ i ∈ [Instr.tmBuild 0 0 1 1 3 0 0, .tmBuild 7 1 1 2047 0 0 0], opOf i = .tmBuild := by decide
theorem witness_ARestartLooksLikeAWrap : (withCount 16383).tx.seqcnt.toNat = 16383 := by decide

theorem witness_AFrameGivesItsPacketBack :
    exec (.frmEnc p0) State.reset = .next (State.reset.returns (.frameImage frame0)) ∧
    (State.reset.returns (.frameImage frame0)).out = .frameImage frame0 := ⟨eq_next (by decide), rfl⟩

/-- The fullest buffer on which the hypothesis holds whatever `RX_DEPTH` is. -/
theorem witness_RxPushAppendsTheByte :
    ∀ above, Config.rxDepth = .bounded above →
      (withRx .awaitingLength [1, 2, 3, 4, 5, 6, 7, 8, 9]).rx.rxbuf.length < 10 + above := by
  intro above _
  show 9 < 10 + above
  omega
theorem witness_RxPushHasNoStepWhenTheBufferIsFull :
    10 + 0 ≤ (withRx .awaitingLength tenBytes).rx.rxbuf.length ∧
    (withRx .awaitingLength [1, 2, 3, 4, 5, 6, 7, 8, 9]).rx.rxbuf.length < 10 + 0 := by decide

theorem witness_PollWithLessThanALengthReturnsNotYet :
    (withRx .awaitingLength [0x0A]).rx.dstate = .awaitingLength ∧
    (withRx .awaitingLength [0x0A]).rx.rxbuf.length < 2 := by decide
theorem witness_PollOfABadLengthDropsItsTwoBytes :
    (withRx .awaitingLength [0x0A, 0x01]).rx.dstate = .awaitingLength ∧
    (withRx .awaitingLength [0x0A, 0x01]).rx.rxbuf = 0x0A :: 0x01 :: [] ∧
    (0x0A : Byte).toNat + 256 * (0x01 : Byte).toNat ≠ 10 := by decide
theorem witness_PollOfTheGoodLengthAwaitsTheBody :
    (withRx .awaitingLength [0x0A, 0x00, 0xFF]).rx.dstate = .awaitingLength ∧
    (withRx .awaitingLength [0x0A, 0x00, 0xFF]).rx.rxbuf = 0x0A :: 0x00 :: [0xFF] ∧
    (0x0A : Byte).toNat + 256 * (0x00 : Byte).toNat = 10 := by decide
theorem witness_PollWithLessThanABodyReturnsNotYet :
    (withRx (.awaitingBody 10) [1, 2, 3, 4, 5, 6, 7, 8, 9]).rx.dstate = .awaitingBody 10 ∧
    (withRx (.awaitingBody 10) [1, 2, 3, 4, 5, 6, 7, 8, 9]).rx.rxbuf.length < (10 : Word).toNat := by decide
theorem witness_PollOfABodyEmitsItsPacket :
    (withRx (.awaitingBody 10) (image0.toList ++ [0xFF])).rx.dstate = .awaitingBody 10 ∧
    (withRx (.awaitingBody 10) (image0.toList ++ [0xFF])).rx.rxbuf = image0.toList ++ [0xFF] := by decide
theorem witness_PollRefusesABodyOfAnotherSize :
    (withRx (.awaitingBody 9) [1, 2, 3, 4, 5, 6, 7, 8, 9]).rx.dstate = .awaitingBody 9 ∧ (9 : Word) ≠ 10 ∧
    (9 : Word).toNat ≤ (withRx (.awaitingBody 9) [1, 2, 3, 4, 5, 6, 7, 8, 9]).rx.rxbuf.length := by decide
theorem witness_PollAlwaysAnswersOneResult :
    State.reset.rx.dstate.legal = true ∧ (withRx (.awaitingBody 10) tenBytes).rx.dstate.legal = true := by decide
theorem witness_PollDependsOnTheRxHalfOnly :
    State.reset.rx = (withCount 7).rx ∧
    exec .decPoll State.reset = .next (State.reset.returns (.poll .notYet)) := ⟨rfl, eq_next (by decide)⟩

theorem witness_NoPartOfABodyIsSeenBeforeItsPacket_notYet :
    exec .decPoll (withRx (.awaitingBody 10) [1]) = .next ((withRx (.awaitingBody 10) [1]).returns (.poll .notYet)) :=
  eq_next (by decide)
theorem witness_NoPartOfABodyIsSeenBeforeItsPacket_lenOk :
    exec .decPoll (withRx .awaitingLength [0x0A, 0x00]) = .next ((withRx (.awaitingBody 10) []).returns (.poll .lenOk)) :=
  eq_next (by decide)
theorem witness_NoPartOfABodyIsSeenBeforeItsPacket_error :
    exec .decPoll (withRx .awaitingLength [0x0B, 0x00]) =
      .next ((withRx .awaitingLength []).returns (.poll (.framingError 11))) := eq_next (by decide)
theorem witness_NoPartOfABodyIsSeenBeforeItsPacket_packet :
    exec .decPoll (withRx (.awaitingBody 10) image0.toList) =
      .next ((withRx .awaitingLength []).returns (.poll (.packet p0))) := eq_next (by decide)

theorem witness_AnEvenNumberOfBytesIsConsumed :
    State.reset.rx = State.reset.rx ∧
    (∀ i ∈ [Instr.rxPush 1, .rxPush 2, .rxPush 3, .decPoll], opOf i ≠ .resetRx) ∧
    runProgram [.rxPush 1, .rxPush 2, .rxPush 3, .decPoll] State.reset =
      .next ([.none, .none, .none, .poll (.framingError 0x0201)],
        (withRx .awaitingLength [3]).returns (.poll (.framingError 0x0201))) :=
  ⟨rfl, by decide, eq_next (by decide)⟩

/-- The worked example's frame, pushed with a poll after its length word. -/
def fragmented : List Instr :=
  [.decPoll, .rxPush 0x0A, .decPoll, .rxPush 0x00, .decPoll, .rxPush 0x01, .rxPush 0x08, .rxPush 0x00, .decPoll,
    .rxPush 0xC0, .rxPush 0x03, .rxPush 0x00, .rxPush 0x29, .rxPush 0x09, .rxPush 0x7C, .rxPush 0x17]

theorem witness_FragmentationDoesNotMatter_stream :
    State.reset.rx = State.reset.rx ∧ (∀ i ∈ fragmented, opOf i = .decPoll ∨ opOf i = .rxPush) ∧
    pushedBytes fragmented = frameStream [p0] ∧
    runProgram fragmented State.reset =
      .next ([.poll .notYet, .none, .poll .notYet, .none, .poll .lenOk, .none, .none, .none, .poll .notYet, .none, .none,
        .none, .none, .none, .none, .none], withRx (.awaitingBody 10) image0.toList) :=
  ⟨rfl, by decide, by decide, eq_next (by decide)⟩
theorem witness_FragmentationDoesNotMatter_full :
    (withRx .awaitingLength tenBytes).rx.dstate.legal = true ∧
    withinDepth (.bounded 0) (withRx .awaitingLength tenBytes).rx.rxbuf.length = true ∧
    pushByte (.bounded 0) 0xFF (withRx .awaitingLength tenBytes) = .fault .rxBufFull := ⟨rfl, rfl, rfl⟩

theorem witness_BadLengthsAreDroppedOneByOne_one :
    (withRx .awaitingLength [0x0B, 0x00, 0x0A]).rx.dstate = .awaitingLength ∧ (11 : Word) ≠ 10 ∧
    (withRx .awaitingLength [0x0B, 0x00, 0x0A]).rx.rxbuf = wordBytes [11] ++ [0x0A] := by decide
theorem witness_BadLengthsAreDroppedOneByOne_clean :
    (withRx .awaitingLength (wordBytes [0x0A00, 11] ++ (frmEnc p0).toList)).rx.dstate = .awaitingLength ∧
    (∀ w ∈ [(0x0A00 : Word), 11], w ≠ 10) ∧
    (withRx .awaitingLength (wordBytes [0x0A00, 11] ++ (frmEnc p0).toList)).rx.rxbuf =
      wordBytes [0x0A00, 11] ++ (frmEnc p0).toList := ⟨rfl, by simp, withRx_rxbuf _ _⟩
theorem witness_BadLengthsAreDroppedOneByOne_falseLength :
    (∀ w ∈ [(0x0A00 : Word)], w ≠ 10) ∧
    (withRx .awaitingLength [0x00, 0x0A, 0x0A, 0x00, 0x01, 0x08, 0x00, 0xC0, 0x03, 0x00, 0x29, 0x09, 0x7C, 0x17, 0xFF]).rx.rxbuf =
      wordBytes [0x0A00] ++ 0x0A :: 0x00 :: (image0.toList ++ [0xFF]) ∧
    decDrain (withRx .awaitingLength [0xFF]) =
      .next ([], (withRx .awaitingLength [0xFF]).returns (.poll .notYet)) :=
  ⟨by simp, by decide, eq_next (by decide)⟩

theorem witness_EvenMisalignmentHealsAtTheNextFrame :
    4 < 5 ∧ (∀ w ∈ (wireWords p0).drop 0, w ≠ 10) ∧ (∀ w ∈ (wireWords p0).drop 4, w ≠ 10) ∧
    (withRx .awaitingLength ((frmEnc p0).toList.drop (2 * 4 + 2) ++ (frmEnc p0).toList)).rx.rxbuf =
      (frmEnc p0).toList.drop (2 * 4 + 2) ++ (frmEnc p0).toList :=
  ⟨by decide, by simp [wireWords, p0, u16OfI16], by simp [wireWords, p0, u16OfI16], withRx_rxbuf _ _⟩
theorem witness_AFalseLockNeverReportsAnError :
    (∀ q ∈ (⟨10, 1, 3, 0, 0⟩ : Packet) :: [⟨10, 2, 3, 0, 0⟩], q.packetId = 10) ∧
    (withRx .awaitingLength ((frameStream [⟨10, 1, 3, 0, 0⟩, ⟨10, 2, 3, 0, 0⟩]).drop 2)).rx.rxbuf =
      (frameStream [⟨10, 1, 3, 0, 0⟩, ⟨10, 2, 3, 0, 0⟩]).drop 2 := ⟨by decide, withRx_rxbuf _ _⟩
theorem witness_AParkedDecoderStaysParked_polls :
    (withRx (.awaitingBody 10) [1]).rx.dstate = .awaitingBody 10 ∧
    (withRx (.awaitingBody 10) [1]).rx.rxbuf.length < (10 : Word).toNat := by decide
theorem witness_AParkedDecoderStaysParked_leaves :
    (withRx (.awaitingBody 10) [1]).rx.rxbuf.length < 10 ∧
    exec .resetRx (withRx (.awaitingBody 10) [1]) = .next State.reset ∧
    State.reset.rx.dstate ≠ .awaitingBody 10 := ⟨by decide, eq_next (by decide), by decide⟩

theorem witness_EachStateElementHasItsWriters :
    exec .resetTx (withCount 5) = .next State.reset ∧ State.reset.tx ≠ (withCount 5).tx ∧
    exec .resetRx (withRx (.awaitingBody 10) [1]) = .next State.reset ∧
    State.reset.rx.dstate ≠ (withRx (.awaitingBody 10) [1]).rx.dstate ∧
    State.reset.rx.rxbuf ≠ (withRx (.awaitingBody 10) [1]).rx.rxbuf :=
  ⟨eq_next (by decide), by decide, eq_next (by decide), by decide, by decide⟩
theorem witness_NoOperationReadsTheOtherHalf :
    opOf .decPoll ≠ .tmBuild ∧ opOf .decPoll ≠ .resetTx ∧
    exec .decPoll State.reset = .next (State.reset.returns (.poll .notYet)) ∧
    opOf .resetTx ≠ .rxPush ∧ opOf .resetTx ≠ .decPoll ∧ opOf .resetTx ≠ .resetRx ∧
    exec .resetTx (withCount 5) = .next State.reset :=
  ⟨by decide, by decide, eq_next (by decide), by decide, by decide, by decide, eq_next (by decide)⟩
theorem witness_PureOperationsAreFunctionsOfTheirOperands :
    opOf (.frmEnc p0) ∈ [Op.pidEnc, Op.pidDec, Op.seqEnc, Op.seqDec, Op.pktSer, Op.pktDes, Op.frmEnc] := by decide

/-- A state with a whole body, which meets the invariant whatever `RX_DEPTH` is. -/
theorem witness_Inv (es : List Event) :
    State.Inv { (withRx (.awaitingBody 10) image0.toList) with pending := es } := by
  refine ⟨rfl, ?_⟩
  cases Config.rxDepth with
  | bounded above => exact decide_eq_true (Nat.le_add_right 10 above)
  | unbounded => rfl
theorem witness_StepKeepsTheInvariant :
    State.Inv { (withRx (.awaitingBody 10) image0.toList) with pending := [.call [0x09]] } ∧
    step { (withRx (.awaitingBody 10) image0.toList) with pending := [.call [0x09]] } =
      .next (State.reset.returns (.poll (.packet p0))) := ⟨witness_Inv _, eq_next (by decide)⟩
theorem witness_OnlyMisusesStopTheMachine :
    State.Inv { (withRx (.awaitingBody 10) image0.toList) with pending := [.call [0x0C]] } := witness_Inv _

theorem witness_TheTransportMovesTheOldestByte_moves :
    ∀ above, Config.rxDepth = .bounded above →
      ({ (withRx .awaitingLength [1, 2, 3, 4, 5, 6, 7, 8, 9]) with link := [0x55], pending := [.deliver] } :
        State).rx.rxbuf.length < 10 + above := by
  intro above _
  show 9 < 10 + above
  omega
theorem witness_TheTransportMovesTheOldestByte_empty :
    (withEvents [.deliver]).pending = .deliver :: [] ∧ (withEvents [.deliver]).link = [] := ⟨rfl, rfl⟩
theorem witness_TheTransportMovesTheOldestByte_full :
    10 + 0 ≤ (withRx .awaitingLength tenBytes).rx.rxbuf.length := by decide
theorem witness_AWriteAppendsItsFrameToTheLink :
    (withEvents [.write frame0, .deliver]).pending = .write frame0 :: [.deliver] := rfl
theorem witness_ACleanLinkDeliversEveryPacketInOrder :
    cleanSchedule [.write frame0, .deliver, .call [0x09], .deliver] [p0] ∧
    (withEvents [.write frame0, .deliver, .call [0x09], .deliver]).rx = State.reset.rx ∧
    (withEvents [.write frame0, .deliver, .call [0x09], .deliver]).link = [] ∧
    (withEvents [.write frame0, .deliver, .call [0x09], .deliver]).pending =
      [.write frame0, .deliver, .call [0x09], .deliver] :=
  ⟨⟨test_frmEnc.symm, rfl, rfl⟩, rfl, rfl, rfl⟩

theorem witness_RxFeedAppendsTheBytesInOrder :
    ∀ above, Config.rxDepth = .bounded above → State.reset.rx.rxbuf.length + image0.toList.length ≤ 10 + above := by
  intro above _
  show 10 ≤ 10 + above
  omega
theorem witness_DecDrainEndsAtNotYet :
    State.reset.rx.dstate.legal = true ∧ (withRx (.awaitingBody 10) tenBytes).rx.dstate.legal = true := by decide
theorem witness_AStepOfOneLinkLeavesTheOthersAlone :
    stepLink 1 [State.reset, withEvents [.call [0x0A]]] = .next [State.reset, State.reset] ∧
    0 ≠ 1 ∧ [State.reset, withEvents [.call [0x0A]]][1]? = some (withEvents [.call [0x0A]]) :=
  ⟨eq_next (by decide), by decide, rfl⟩
theorem witness_ResultCodesAreDistinct :
    (PollResult.framingError 1).code = (PollResult.framingError 2).code := by decide

theorem witness_ExplenIsReadOnlyWhileABodyIsAwaited_length :
    RxRegisters.holds { tag := 0, explen := 0xFFFF, rxbuf := [0x0A, 0x00] } (withRx .awaitingLength [0x0A, 0x00]).rx =
      true := by decide
theorem witness_ExplenIsReadOnlyWhileABodyIsAwaited_body :
    RxRegisters.holds { tag := 1, explen := 10, rxbuf := tenBytes } (withRx (.awaitingBody 10) tenBytes).rx = true := by
  decide
theorem witness_ExplenIsReadOnlyWhileABodyIsAwaited_refused :
    RxRegisters.holds { tag := 1, explen := 9, rxbuf := tenBytes } (withRx (.awaitingBody 9) tenBytes).rx = true := by
  decide
theorem witness_ExplenIsReadOnlyWhileABodyIsAwaited_push :
    RxRegisters.holds { tag := 0, explen := 7, rxbuf := [] } State.reset.rx = true ∧
    exec (.rxPush 1) State.reset = .next (withRx .awaitingLength [1]) := ⟨by decide, eq_next (by decide)⟩
theorem witness_CallsWithSurplusBytesAreRefused :
    (withEvents [.call [0x09]]).pending = .call (encode .decPoll) :: [] ∧
    (withEvents [.call [0x09, 0x00]]).pending = .call (encode .decPoll ++ 0x00 :: []) :: [] := ⟨rfl, rfl⟩

end Sys2Proof.Tests
end

section
/-! Calls and steps. The decoder reads back the operation of every encoded call and leaves the bytes after it; so the whole
call runs, and a call with bytes after its operands is refused. -/

namespace Sys2Proof

open Machine

/-- Each operation reads its own operand bytes and no more, by one reading lemma per operand. -/
theorem decodeOperands_operandBytes (i : Instr) (rest : List Byte) :
    decodeOperands (opOf i) (operandBytes i ++ rest) = some (i, rest) := by
  cases i <;> simp [opOf, operandBytes, decodeOperands, takeByte]

/-- The round trip of a call: its select byte names its operation, whose operands are then read back. -/
theorem decode_encode_append (i : Instr) (rest : List Byte) : decode (encode i ++ rest) = .ok (i, rest) := by
  simp [encode, decode, selectOf_select, ofSelect_select, decodeOperands_operandBytes]

@[simp] theorem decodeCall_encode (i : Instr) : decodeCall (encode i) = .ok i := by
  have h := decode_encode_append i []
  rw [List.append_nil] at h
  exact decodeCall_eq_ok.mpr h

@[simp] theorem decodeCall_encode_append_cons (i : Instr) (b : Byte) (rest : List Byte) :
    decodeCall (encode i ++ b :: rest) = .error (.oversizedCall (opOf i).select) := by
  simp [decodeCall, decode_encode_append]

namespace Machine

theorem runCall_of_ok {bytes : List Byte} {i : Instr} (h : decodeCall bytes = .ok i) (s : State) :
    runCall bytes s = exec i s := by
  simp [runCall, h]

theorem runCall_of_error {bytes : List Byte} {r : Reject} (h : decodeCall bytes = .error r) (s : State) :
    runCall bytes s = .refused (refusalOf r) := by
  simp [runCall, h]

/-- The step of a schedule whose first thing is known: it is taken off and done. -/
theorem step_of_pending_cons {s : State} {e : Event} {es : List Event} (h : s.pending = e :: es) :
    step s = runEvent e { s with pending := es } := by
  simp [step, h, State.withPending]

theorem step_of_pending_call {s : State} {bytes : List Byte} {es : List Event} (h : s.pending = .call bytes :: es) :
    step s = runCall bytes { s with pending := es } :=
  step_of_pending_cons h

end Machine

/-- Settles O57: the decoder reads the call `encode i` whole, and what it leaves of `encode i ++ b :: rest` is a surplus,
which the call is refused for. -/
theorem callsWithSurplusBytesAreRefused : Obligations.CallsWithSurplusBytesAreRefused := by
  intro s i es
  constructor
  · intro h
    rw [step_of_pending_call h, runCall_of_ok (decodeCall_encode i)]
  · intro b rest h
    rw [step_of_pending_call h, runCall_of_error (decodeCall_encode_append_cons i b rest)]
    rfl

end Sys2Proof
end

section
/-! The state. What an operation may read and write is said by a predicate on it, `ReturnsConstant`, `ActsOnTxAlone` or
`ActsOnRxAlone`, and one split over the operations says which of these each is; that no operation reads the other half
follows from the predicates. Reset and several links come after. -/

namespace Sys2Proof.Machine

/-- One value is returned in every state, and nothing else is done. -/
def ReturnsConstant (op : State → Host.Outcome State Fault Refusal) : Prop :=
  ∃ o, ∀ s, op s = .next (s.returns o)

/-- Where the operation answers, the TX half alone decides its result and the new TX half, and it writes nothing else. -/
def ActsOnTxAlone (op : State → Host.Outcome State Fault Refusal) : Prop :=
  ∀ s t, op s = .next t → ∃ tx o, ∀ s', s'.tx = s.tx → op s' = .next ((s'.withTx tx).returns o)

/-- Where the operation answers, the RX half alone decides its result and the new RX half, and it writes nothing else. -/
def ActsOnRxAlone (op : State → Host.Outcome State Fault Refusal) : Prop :=
  ∀ s t, op s = .next t → ∃ rx o, ∀ s', s'.rx = s.rx → op s' = .next ((s'.withRx rx).returns o)

section
variable {op : State → Host.Outcome State Fault Refusal} {s t : State}

theorem ReturnsConstant.actsOnTxAlone (hop : ReturnsConstant op) : ActsOnTxAlone op := by
  obtain ⟨o, ho⟩ := hop
  exact fun s _ _ => ⟨s.tx, o, fun s' hs' => by rw [ho s', ← hs']; rfl⟩

theorem ReturnsConstant.actsOnRxAlone (hop : ReturnsConstant op) : ActsOnRxAlone op := by
  obtain ⟨o, ho⟩ := hop
  exact fun s _ _ => ⟨s.rx, o, fun s' hs' => by rw [ho s', ← hs']; rfl⟩

theorem ActsOnTxAlone.eq_next (hop : ActsOnTxAlone op) (h : op s = .next t) :
    ∃ tx o, t = (s.withTx tx).returns o ∧ ∀ s', s'.tx = s.tx → op s' = .next ((s'.withTx tx).returns o) := by
  obtain ⟨tx, o, hall⟩ := hop s t h
  exact ⟨tx, o, Host.Outcome.next.inj (h.symm.trans (hall s rfl)), hall⟩

theorem ActsOnRxAlone.eq_next (hop : ActsOnRxAlone op) (h : op s = .next t) :
    ∃ rx o, t = (s.withRx rx).returns o ∧ ∀ s', s'.rx = s.rx → op s' = .next ((s'.withRx rx).returns o) := by
  obtain ⟨rx, o, hall⟩ := hop s t h
  exact ⟨rx, o, Host.Outcome.next.inj (h.symm.trans (hall s rfl)), hall⟩

end

/-! ### Each operation's own half -/

theorem execTmBuild_actsOnTxAlone (version ptype shf apid seqflags : Word) (temp : Int16) (hum : Word) :
    ActsOnTxAlone (execTmBuild version ptype shf apid seqflags temp hum) :=
  fun s _ _ => ⟨s.tx.advance, .packet (buildPacket version ptype shf apid seqflags temp hum s.tx.seqcnt),
    fun s' hs' => by rw [← hs']; rfl⟩

theorem execResetTx_actsOnTxAlone : ActsOnTxAlone execResetTx :=
  fun _ _ _ => ⟨{ seqcnt := 0 }, .none, fun _ _ => rfl⟩

theorem execResetRx_actsOnRxAlone : ActsOnRxAlone execResetRx :=
  fun _ _ _ => ⟨{ dstate := .awaitingLength, rxbuf := [] }, .none, fun _ _ => rfl⟩

theorem execRxPush_actsOnRxAlone (b : Byte) : ActsOnRxAlone (execRxPush b) := by
  intro s t h
  obtain ⟨hroom, -⟩ := pushByte_cases h
  refine ⟨s.rx.push b, .none, fun s' hs' => ?_⟩
  rw [← hs'] at hroom ⊢
  exact pushByte_of_room hroom

section
variable {s s' : State} (hrx : s'.rx = s.rx)
include hrx

theorem notYet_of_rx_eq : notYet s' = (s'.withRx (notYet s).rx).returns (notYet s).out := by
  rw [notYet, notYet, State.returns_rx, ← hrx]
  rfl

theorem pollLength_of_rx_eq : pollLength s' = (s'.withRx (pollLength s).rx).returns (pollLength s).out := by
  unfold pollLength
  rw [hrx]
  split
  · split <;> rfl
  · exact notYet_of_rx_eq hrx
  · exact notYet_of_rx_eq hrx

theorem pollBody_of_rx_eq {n : Word} {t : State} (h : pollBody n s = .next t) :
    pollBody n s' = .next ((s'.withRx t.rx).returns t.out) := by
  unfold pollBody at h ⊢
  rw [hrx]
  split at h
  · cases h
    rw [if_pos ‹_›, notYet_of_rx_eq hrx]
  · rw [if_neg ‹_›]
    split at h
    · cases h; rfl
    · cases h

end

theorem execDecPoll_actsOnRxAlone : ActsOnRxAlone execDecPoll := by
  intro s t h
  refine ⟨t.rx, t.out, fun s' hs' => ?_⟩
  unfold execDecPoll at h ⊢
  rw [hs']
  split at h
  · cases h
    exact congrArg _ (pollLength_of_rx_eq hs')
  · exact pollBody_of_rx_eq hs' h

/-- The one split over the operations: each is pure, or of the TX half, or of the RX half (R20, R34, R53). -/
theorem exec_pure_or_ownHalf (i : Instr) :
    ReturnsConstant (exec i) ∨
    ((opOf i = .tmBuild ∨ opOf i = .resetTx) ∧ ActsOnTxAlone (exec i)) ∨
    ((opOf i = .rxPush ∨ opOf i = .decPoll ∨ opOf i = .resetRx) ∧ ActsOnRxAlone (exec i)) := by
  cases i with
  | tmBuild version ptype shf apid seqflags temp hum =>
    exact .inr (.inl ⟨.inl rfl, execTmBuild_actsOnTxAlone version ptype shf apid seqflags temp hum⟩)
  | resetTx => exact .inr (.inl ⟨.inr rfl, execResetTx_actsOnTxAlone⟩)
  | rxPush b => exact .inr (.inr ⟨.inl rfl, execRxPush_actsOnRxAlone b⟩)
  | decPoll => exact .inr (.inr ⟨.inr (.inl rfl), execDecPoll_actsOnRxAlone⟩)
  | resetRx => exact .inr (.inr ⟨.inr (.inr rfl), execResetRx_actsOnRxAlone⟩)
  | _ => exact .inl ⟨_, fun _ => rfl⟩

theorem exec_actsOnRxAlone {i : Instr} (hbuild : opOf i ≠ .tmBuild) (hreset : opOf i ≠ .resetTx) :
    ActsOnRxAlone (exec i) := by
  rcases exec_pure_or_ownHalf i with hpure | ⟨hb | hr, -⟩ | ⟨-, hact⟩
  · exact hpure.actsOnRxAlone
  · exact absurd hb hbuild
  · exact absurd hr hreset
  · exact hact

theorem exec_actsOnTxAlone {i : Instr} (hpush : opOf i ≠ .rxPush) (hpoll : opOf i ≠ .decPoll)
    (hreset : opOf i ≠ .resetRx) : ActsOnTxAlone (exec i) := by
  rcases exec_pure_or_ownHalf i with hpure | ⟨-, hact⟩ | ⟨hb | hd | hr, -⟩
  · exact hpure.actsOnTxAlone
  · exact hact
  · exact absurd hb hpush
  · exact absurd hd hpoll
  · exact absurd hr hreset

theorem exec_actsOnOneHalf (i : Instr) : ActsOnTxAlone (exec i) ∨ ActsOnRxAlone (exec i) := by
  rcases exec_pure_or_ownHalf i with hpure | ⟨-, hact⟩ | ⟨-, hact⟩
  · exact .inl hpure.actsOnTxAlone
  · exact .inl hact
  · exact .inr hact

/-- Settles O43: an operation acts on one half alone, so all else of the state can be replaced. -/
theorem noOperationReadsTheOtherHalf : Obligations.NoOperationReadsTheOtherHalf := by
  refine ⟨?_, ?_, ?_⟩
  · intro i s t tx hbuild hreset h
    obtain ⟨rx, o, rfl, hall⟩ := (exec_actsOnRxAlone hbuild hreset).eq_next h
    exact hall _ rfl
  · intro i s t rx hpush hpoll hreset h
    obtain ⟨tx, o, rfl, hall⟩ := (exec_actsOnTxAlone hpush hpoll hreset).eq_next h
    exact hall _ rfl
  · intro i s t link pending out h
    rcases exec_actsOnOneHalf i with hact | hact
    · obtain ⟨tx, o, rfl, hall⟩ := hact.eq_next h
      exact hall _ rfl
    · obtain ⟨rx, o, rfl, hall⟩ := hact.eq_next h
      exact hall _ rfl

/-! ### Reset -/

theorem withinDepth_zero (depth : RxDepth) : withinDepth depth 0 = true :=
  withinDepth_mono (Nat.zero_le 1) (withinDepth_of_hasRoom (hasRoom_of_lt_ten depth (by decide)))

theorem State.reset_inv : State.reset.Inv := ⟨rfl, withinDepth_zero Config.rxDepth⟩

/-- Settles O45: the values are those `State.reset` is written with, and an empty buffer is within every capacity. -/
theorem resetMeetsTheInvariant : Obligations.ResetMeetsTheInvariant := ⟨rfl, rfl, rfl, State.reset_inv⟩

/-! ### Several links -/

/-- A step of link `k` that answers: there is no such link and nothing happens, or link `k` alone is replaced. -/
theorem stepLink_cases {k : Nat} {links links' : Links} (h : stepLink k links = .next links') :
    (links[k]? = none ∧ links' = links) ∨
    ∃ s t, links[k]? = some s ∧ step s = .next t ∧ links' = links.set k t := by
  unfold stepLink at h
  split at h
  · cases h
    exact .inl ⟨‹_›, rfl⟩
  · rename_i s hs
    obtain ⟨t, ht, hset⟩ := andThen_eq_next.mp h
    cases hset
    exact .inr ⟨s, t, hs, ht, rfl⟩

/-- Settles O55: the step of link `k` sets the entry `k` of the list to what the link's own step gives. -/
theorem aStepOfOneLinkLeavesTheOthersAlone : Obligations.AStepOfOneLinkLeavesTheOthersAlone := by
  intro k links links' h
  rcases stepLink_cases h with ⟨hnone, rfl⟩ | ⟨s, t, hs, ht, rfl⟩
  · exact ⟨fun _ _ => rfl, fun s hs => by simp [hnone] at hs⟩
  · obtain ⟨hk, -⟩ := List.getElem?_eq_some_iff.mp hs
    refine ⟨fun j hj => List.getElem?_set_ne hj.symm, fun s' hs' => ⟨t, ?_, List.getElem?_set_self hk⟩⟩
    cases hs.symm.trans hs'
    exact ht

end Sys2Proof.Machine
end

section
/-! The transport. A write is one step that appends its frame to `LINK`. On a clean link the decoder stays in step with the
stream of frames: what it still owes its caller for the bytes in `RXBUF` and `LINK` is a predicate on `DSTATE` and those
bytes, and each agent's act either keeps it or pays the first of the results owed. -/

namespace Sys2Proof.Machine

/-- Settles O49: the write is taken off the schedule and done. -/
theorem aWriteAppendsItsFrameToTheLink : Obligations.AWriteAppendsItsFrameToTheLink := by
  intro s frame es h
  rw [step_of_pending_cons h]
  rfl

/-! ### The stream of frames and the results for it -/

@[simp] theorem pktDes_pktSer (p : Packet) : pktDes (pktSer p) = p := by
  simp [pktDes, pktSer]

theorem frmEnc_toList (p : Packet) : (frmEnc p).toList = 0x0A :: 0x00 :: (pktSer p).toList := rfl

theorem frameStream_append (ps qs : List Packet) : frameStream (ps ++ qs) = frameStream ps ++ frameStream qs := by
  induction ps with
  | nil => rfl
  | cons p ps ih => simp [frameStream, ih]

theorem cleanResults_append (ps qs : List Packet) : cleanResults (ps ++ qs) = cleanResults ps ++ cleanResults qs := by
  induction ps with
  | nil => rfl
  | cons p ps ih => simp [cleanResults, ih]

theorem cleanResults_length_le (ps : List Packet) : (cleanResults ps).length ≤ (frameStream ps).length := by
  induction ps with
  | nil => exact Nat.le_refl 0
  | cons p ps ih =>
    simp only [cleanResults, frameStream, List.length_cons, List.length_append, Vector.length_toList]
    omega

/-- The stream of frames begins with a length word that is good, and a body follows it. -/
theorem frameStream_eq_cons_cons {ps : List Packet} {b0 b1 : Byte} {rest : List Byte}
    (h : frameStream ps = b0 :: b1 :: rest) :
    ∃ p qs, ps = p :: qs ∧ le16 b0 b1 = Config.expectedLen ∧ rest = (pktSer p).toList ++ frameStream qs := by
  cases ps with
  | nil => cases h
  | cons p qs =>
    rw [frameStream, frmEnc_toList] at h
    cases h
    exact ⟨p, qs, rfl, rfl, rfl⟩

theorem eq_nil_of_frameStream_length_lt_two {ps : List Packet} (h : (frameStream ps).length < 2) : ps = [] := by
  cases ps with
  | nil => rfl
  | cons p qs =>
    simp only [frameStream, List.length_append, Vector.length_toList] at h
    omega

theorem progressOf_cons (o : Output) (outs : List Output) :
    progressOf (o :: outs) = progressOf [o] ++ progressOf outs := by
  cases o with
  | poll r => cases hr : r.isProgress <;> simp [progressOf, hr]
  | _ => rfl

/-! ### What a decoder in step with the stream owes -/

/-- The decoder is in state `DSTATE`, the bytes not yet consumed are the rest of a stream of frames it is in step with, and
the list holds the results it has still to give for them (R140). -/
inductive DState.Owes : DState → List Byte → List PollResult → Prop
  | frames (ps : List Packet) : Owes .awaitingLength (frameStream ps) (cleanResults ps)
  | body (p : Packet) (ps : List Packet) :
      Owes (.awaitingBody 10) ((pktSer p).toList ++ frameStream ps) (.packet p :: cleanResults ps)

namespace DState.Owes

theorem nothing : Owes .awaitingLength [] [] := frames []

theorem append_frames {d : DState} {bytes : List Byte} {rs : List PollResult} (h : d.Owes bytes rs)
    (qs : List Packet) : d.Owes (bytes ++ frameStream qs) (rs ++ cleanResults qs) := by
  cases h with
  | frames ps =>
    rw [← frameStream_append, ← cleanResults_append]
    exact frames (ps ++ qs)
  | body p ps =>
    rw [List.append_assoc, ← frameStream_append, List.cons_append, ← cleanResults_append]
    exact body p (ps ++ qs)

theorem legal {d : DState} {bytes : List Byte} {rs : List PollResult} (h : d.Owes bytes rs) : d.legal = true := by
  cases h <;> rfl

theorem length_le {d : DState} {bytes : List Byte} {rs : List PollResult} (h : d.Owes bytes rs) :
    rs.length ≤ bytes.length := by
  cases h with
  | frames ps => exact cleanResults_length_le ps
  | body p ps =>
    have := cleanResults_length_le ps
    simp only [List.length_cons, List.length_append, Vector.length_toList]
    omega

theorem reset_of_nil {rx : RxHalf} (h : rx.dstate.Owes rx.rxbuf []) : rx = State.reset.rx := by
  obtain ⟨d, bs⟩ := rx
  generalize hrs : ([] : List PollResult) = rs at h
  cases h with
  | frames ps =>
    cases ps with
    | nil => rfl
    | cons p ps => cases hrs
  | body p ps => cases hrs

/-- No rest of a stream of frames is shorter than a length word, but the empty one. -/
theorem eq_nil_of_length_lt_two {bytes : List Byte} {rs : List PollResult} (h : Owes .awaitingLength bytes rs)
    (hlen : bytes.length < 2) : rs = [] := by
  cases h with
  | frames ps => rw [eq_nil_of_frameStream_length_lt_two hlen]; rfl

theorem of_length_word {b0 b1 : Byte} {rest : List Byte} {rs : List PollResult}
    (h : Owes .awaitingLength (b0 :: b1 :: rest) rs) :
    le16 b0 b1 = Config.expectedLen ∧ ∃ rs', rs = .lenOk :: rs' ∧ Owes (.awaitingBody 10) rest rs' := by
  generalize hbytes : b0 :: b1 :: rest = bytes at h
  cases h with
  | frames ps =>
    obtain ⟨p, qs, rfl, hlen, rfl⟩ := frameStream_eq_cons_cons hbytes.symm
    exact ⟨hlen, _, rfl, body p qs⟩

theorem bodyLength_le_length {n : Word} {bytes : List Byte} {rs : List PollResult} (h : Owes (.awaitingBody n) bytes rs) :
    n.toNat ≤ bytes.length := by
  cases h with
  | body p ps => simp

theorem of_body {n : Word} {image : PacketImage} {rest : List Byte} {rs : List PollResult}
    (h : Owes (.awaitingBody n) (image.toList ++ rest) rs) :
    ∃ rs', rs = .packet (pktDes image) :: rs' ∧ Owes .awaitingLength rest rs' := by
  generalize hbytes : image.toList ++ rest = bytes at h
  cases h with
  | body p ps =>
    obtain ⟨himage, rfl⟩ := List.append_inj hbytes (by simp)
    rw [Vector.toList_inj.mp himage, pktDes_pktSer]
    exact ⟨_, rfl, frames ps⟩

end DState.Owes

/-- A poll of a decoder that owes `rs` for the bytes in `RXBUF` and those still to come: it is waiting for bytes still to
come, or owes nothing; or it gives the first result it owes, and owes the others. -/
theorem exec_decPoll_of_owes {s : State} {incoming : List Byte} {rs : List PollResult}
    (h : s.rx.dstate.Owes (s.rx.rxbuf ++ incoming) rs) :
    (exec .decPoll s = .next (notYet s) ∧ (incoming = [] → rs = [])) ∨
    ∃ r rs' rx, rs = r :: rs' ∧ r.isProgress = true ∧ exec .decPoll s = .next ((s.withRx rx).returns (.poll r)) ∧
      rx.dstate.Owes (rx.rxbuf ++ incoming) rs' := by
  obtain ⟨t, ht⟩ := execDecPoll_of_legal h.legal
  rcases execDecPoll_cases ht with ⟨rfl, ⟨hd, hlen⟩ | ⟨n, hd, hlen⟩⟩ | ⟨b0, b1, rest, hd, hbuf, -, rfl⟩ |
    ⟨b0, b1, rest, hd, hbuf, hbad, rfl⟩ | ⟨n, image, rest, hd, -, hbuf, rfl⟩
  · rw [hd] at h
    refine .inl ⟨ht, ?_⟩
    rintro rfl
    rw [List.append_nil] at h
    exact h.eq_nil_of_length_lt_two hlen
  · rw [hd] at h
    refine .inl ⟨ht, ?_⟩
    rintro rfl
    rw [List.append_nil] at h
    exact absurd h.bodyLength_le_length (Nat.not_le.mpr hlen)
  · rw [hd, hbuf] at h
    obtain ⟨-, rs', rfl, h'⟩ := h.of_length_word
    exact .inr ⟨.lenOk, rs', { dstate := .awaitingBody 10, rxbuf := rest }, rfl, rfl, ht, h'⟩
  · rw [hd, hbuf] at h
    obtain ⟨hgood, -⟩ := h.of_length_word
    exact absurd hgood hbad
  · rw [hd, hbuf, List.append_assoc] at h
    obtain ⟨rs', rfl, h'⟩ := h.of_body
    exact .inr ⟨_, rs', { dstate := .awaitingLength, rxbuf := rest }, rfl, rfl, ht, h'⟩

/-- With no more bytes to come, a drain gives all that is owed and leaves the RX half as at reset. -/
theorem drainWith_of_owes {rs : List PollResult} {fuel : Nat} {s : State} (h : s.rx.dstate.Owes s.rx.rxbuf rs)
    (hfuel : rs.length < fuel) : ∃ u, drainWith fuel s = .next (rs, u) ∧ u.rx = State.reset.rx := by
  induction fuel generalizing rs s with
  | zero => exact absurd hfuel (Nat.not_lt_zero _)
  | succ fuel ih =>
    rw [← List.append_nil s.rx.rxbuf] at h
    rcases exec_decPoll_of_owes h with ⟨hpoll, hnil⟩ | ⟨r, rs', rx, rfl, hr, hpoll, h'⟩
    · cases hnil rfl
      rw [List.append_nil] at h
      exact ⟨notYet s, drainWith_notYet hpoll rfl, h.reset_of_nil⟩
    · rw [List.append_nil] at h'
      obtain ⟨u, hdrain, hu⟩ := ih (s := (s.withRx rx).returns (.poll r)) h' (Nat.lt_of_succ_lt_succ hfuel)
      refine ⟨u, ?_, hu⟩
      rw [drainWith_progress hpoll rfl hr, hdrain]
      rfl

theorem decDrain_of_owes {rs : List PollResult} {s : State} (h : s.rx.dstate.Owes s.rx.rxbuf rs) :
    ∃ u, decDrain s = .next (rs, u) ∧ u.rx = State.reset.rx :=
  drainWith_of_owes h (Nat.lt_succ_of_le h.length_le)

/-! ### A clean schedule -/

/-- What is scheduled is clean, and `rs` are the results still to come: those the decoder owes for the bytes in `RXBUF` and
`LINK`, then those of the Packets whose frames are still to be written. -/
def State.CleanRun (s : State) (rs : List PollResult) : Prop :=
  ∃ owed ps, s.rx.dstate.Owes (s.rx.rxbuf ++ s.link) owed ∧ cleanSchedule s.pending ps ∧ rs = owed ++ cleanResults ps

namespace State.CleanRun

variable {s : State} {es : List Event} {rs : List PollResult}

theorem owes_of_pending_nil (h : s.CleanRun rs) (hp : s.pending = []) :
    s.rx.dstate.Owes (s.rx.rxbuf ++ s.link) rs := by
  obtain ⟨owed, ps, howed, hes, rfl⟩ := h
  rw [hp] at hes
  cases hes
  rwa [cleanResults, List.append_nil]

theorem write {frame : FrameImage} (h : s.CleanRun rs) (hp : s.pending = .write frame :: es) :
    (writeFrame frame (s.withPending es)).CleanRun rs := by
  obtain ⟨owed, ps, howed, hes, rfl⟩ := h
  rw [hp] at hes
  cases ps with
  | nil => exact hes.elim
  | cons p ps =>
    obtain ⟨rfl, hes⟩ := hes
    refine ⟨owed ++ cleanResults [p], ps, ?_, hes, ?_⟩
    · simpa [writeFrame, frameStream] using howed.append_frames [p]
    · simp [cleanResults]

theorem deliver (h : s.CleanRun rs) (hp : s.pending = .deliver :: es) (depth : RxDepth) :
    ∃ t, deliverByte depth (s.withPending es) = .next t ∧ t.pending = es ∧ t.out = .none ∧ t.CleanRun rs := by
  obtain ⟨owed, ps, howed, hes, rfl⟩ := h
  rw [hp] at hes
  rcases deliverByte_cases depth (s.withPending es) with ⟨ht, -⟩ | ⟨b, rest, hlink, -, ht⟩
  · exact ⟨_, ht, rfl, rfl, owed, ps, howed, hes, rfl⟩
  · refine ⟨_, ht, rfl, rfl, owed, ps, ?_, hes, rfl⟩
    rw [State.withPending_link] at hlink
    simpa [hlink] using howed

theorem poll {bytes : List Byte} (h : s.CleanRun rs) (hp : s.pending = .call bytes :: es) :
    ∃ t rs', runCall bytes (s.withPending es) = .next t ∧ t.pending = es ∧ progressOf [t.out] ++ rs' = rs ∧
      t.CleanRun rs' := by
  obtain ⟨owed, ps, howed, hes, rfl⟩ := h
  rw [hp] at hes
  obtain ⟨rfl, hes⟩ := hes
  rw [runCall_of_ok (decodeCall_encode .decPoll)]
  rcases exec_decPoll_of_owes (s := s.withPending es) howed with ⟨ht, -⟩ | ⟨r, owed', rx, rfl, hr, ht, howed'⟩
  · exact ⟨_, _, ht, rfl, rfl, owed, ps, howed, hes, rfl⟩
  · refine ⟨_, owed' ++ cleanResults ps, ht, rfl, ?_, owed', ps, howed', hes, rfl⟩
    simp [progressOf, hr]

/-- Every step of a clean schedule runs, and a result it gives is the first of those to come. -/
theorem step_runs {e : Event} (h : s.CleanRun rs) (hp : s.pending = e :: es) :
    ∃ t rs', step s = .next t ∧ t.pending = es ∧ progressOf [t.out] ++ rs' = rs ∧ t.CleanRun rs' := by
  rw [step_of_pending_cons hp]
  cases e with
  | call bytes => exact h.poll hp
  | deliver =>
    obtain ⟨t, ht, hpending, hout, hclean⟩ := h.deliver hp Config.rxDepth
    exact ⟨t, rs, ht, hpending, by rw [hout]; rfl, hclean⟩
  | write frame => exact ⟨_, rs, rfl, rfl, rfl, h.write hp⟩

theorem runSteps_runs (h : s.CleanRun rs) (hp : s.pending = es) :
    ∃ outs t rs', runSteps es.length s = .next (outs, t) ∧ progressOf outs ++ rs' = rs ∧
      t.rx.dstate.Owes (t.rx.rxbuf ++ t.link) rs' := by
  induction es generalizing s rs with
  | nil => exact ⟨[], s, rs, rfl, rfl, h.owes_of_pending_nil hp⟩
  | cons e es ih =>
    obtain ⟨s', rs', hstep, hp', rfl, h'⟩ := h.step_runs hp
    obtain ⟨outs, t, owed, hrun, rfl, howed⟩ := ih h' hp'
    refine ⟨s'.out :: outs, t, owed, runSteps_succ_eq_next.mpr ⟨s', outs, hstep, hrun, rfl⟩, ?_, howed⟩
    rw [progressOf_cons, List.append_assoc]

end State.CleanRun

/-- Settles O50: at the start nothing is owed and all is still to be written; the run keeps the account of what is still to
come, and a drain pays what is left once `LINK` is empty. -/
theorem aCleanLinkDeliversEveryPacketInOrder : Obligations.ACleanLinkDeliversEveryPacketInOrder := by
  intro ps es s hes hrx hlink hp
  have hstart : s.CleanRun (cleanResults ps) := by
    refine ⟨[], ps, ?_, hp ▸ hes, rfl⟩
    rw [hrx, hlink]
    exact .nothing
  obtain ⟨outs, t, owed, hrun, hresults, howed⟩ := hstart.runSteps_runs hp
  refine ⟨outs, t, hrun, ⟨owed, hresults⟩, fun hempty => ?_⟩
  rw [hempty, List.append_nil] at howed
  obtain ⟨u, hdrain, hu⟩ := decDrain_of_owes howed
  exact ⟨owed, u, hdrain, hresults, hu⟩

end Sys2Proof.Machine
end

section
/-! The header codec. The fields of a word stand in disjoint bits, so packing them is adding their values
(`pidEnc_toNat`, `seqEnc_toNat`). From this each decoder and its encoder are inverse to each other: the word comes back
exactly, an operand reduced to its field. The statements about `exec` follow, and the pure operations come last. -/

namespace Sys2Proof.Machine

/-! ### Packing and taking fields -/

/-- Two words that share no bit, since one has only bits from `k` up and the other only bits below `k`. -/
theorem or_toNat_of_dvd_of_lt {x y : Word} (k : Nat) (hx : 2 ^ k ∣ x.toNat) (hy : y.toNat < 2 ^ k) :
    (x ||| y).toNat = x.toNat + y.toNat := by
  obtain ⟨q, hq⟩ := hx
  rw [BitVec.toNat_or, hq, Nat.two_pow_add_eq_or_of_lt hy]

theorem pidEnc_toNat (version ptype shf apid : Word) :
    (pidEnc version ptype shf apid).toNat =
      version.toNat % 8 * 8192 + ptype.toNat % 2 * 4096 + shf.toNat % 2 * 2048 + apid.toNat % 2048 := by
  have hversion := putField_toNat 3 13 version (by decide) (by decide)
  have hptype := putField_toNat 1 12 ptype (by decide) (by decide)
  have hshf := putField_toNat 1 11 shf (by decide) (by decide)
  have hapid := putField_toNat 11 0 apid (by decide) (by decide)
  have htop := or_toNat_of_dvd_of_lt 13 (x := putField 3 13 version) (y := putField 1 12 ptype) (by omega) (by omega)
  have hflags := or_toNat_of_dvd_of_lt 12 (x := putField 3 13 version ||| putField 1 12 ptype) (y := putField 1 11 shf)
    (by omega) (by omega)
  rw [pidEnc, or_toNat_of_dvd_of_lt 11] <;> omega

theorem seqEnc_toNat (seqflags count : Word) :
    (seqEnc seqflags count).toNat = seqflags.toNat % 4 * 16384 + count.toNat % 16384 := by
  have hseqflags := putField_toNat 2 14 seqflags (by decide) (by decide)
  have hcount := putField_toNat 14 0 count (by decide) (by decide)
  rw [seqEnc, or_toNat_of_dvd_of_lt 14] <;> omega

theorem getField_eq_ofNat (width pos : Nat) (w : Word) (h : width < 16) :
    getField width pos w = BitVec.ofNat width (w.toNat / 2 ^ pos % 2 ^ width) := by
  apply BitVec.eq_of_toNat_eq
  rw [getField_toNat width pos w h, BitVec.toNat_ofNat, Nat.mod_mod]

theorem pidDec_eq_ofNat (w : Word) :
    pidDec w = {
      version := BitVec.ofNat 3 (w.toNat / 8192 % 8), ptype := BitVec.ofNat 1 (w.toNat / 4096 % 2),
      shf := BitVec.ofNat 1 (w.toNat / 2048 % 2), apid := BitVec.ofNat 11 (w.toNat % 2048) } := by
  simp [pidDec, getField_eq_ofNat]

theorem seqDec_eq_ofNat (w : Word) :
    seqDec w = {
      seqflags := BitVec.ofNat 2 (w.toNat / 16384 % 4), count := BitVec.ofNat 14 (w.toNat % 16384) } := by
  simp [seqDec, getField_eq_ofNat]

/-! ### Decoder and encoder are inverse -/

/-- The operands come back, each reduced to its field (R94). -/
@[simp] theorem pidDec_pidEnc (version ptype shf apid : Word) :
    pidDec (pidEnc version ptype shf apid) =
      ⟨version.setWidth 3, ptype.setWidth 1, shf.setWidth 1, apid.setWidth 11⟩ := by
  rw [pidDec_eq_ofNat, pidEnc_toNat, PidFields.mk.injEq]
  refine ⟨?_, ?_, ?_, ?_⟩ <;> apply BitVec.eq_of_toNat_eq <;> rw [BitVec.toNat_ofNat, BitVec.toNat_setWidth] <;>
    omega

@[simp] theorem seqDec_seqEnc (seqflags count : Word) :
    seqDec (seqEnc seqflags count) = ⟨seqflags.setWidth 2, count.setWidth 14⟩ := by
  rw [seqDec_eq_ofNat, seqEnc_toNat, SeqFields.mk.injEq]
  refine ⟨?_, ?_⟩ <;> apply BitVec.eq_of_toNat_eq <;> rw [BitVec.toNat_ofNat, BitVec.toNat_setWidth] <;>
    omega

/-- The fields of a word cover all of it (R91). -/
@[simp] theorem pidEnc_pidDec (w : Word) :
    pidEnc ((pidDec w).version.setWidth 16) ((pidDec w).ptype.setWidth 16) ((pidDec w).shf.setWidth 16)
      ((pidDec w).apid.setWidth 16) = w := by
  have hw := w.isLt
  apply BitVec.eq_of_toNat_eq
  simp only [pidEnc_toNat, pidDec_eq_ofNat, BitVec.toNat_setWidth, BitVec.toNat_ofNat]
  omega

@[simp] theorem seqEnc_seqDec (w : Word) :
    seqEnc ((seqDec w).seqflags.setWidth 16) ((seqDec w).count.setWidth 16) = w := by
  have hw := w.isLt
  apply BitVec.eq_of_toNat_eq
  simp only [seqEnc_toNat, seqDec_eq_ofNat, BitVec.toNat_setWidth, BitVec.toNat_ofNat]
  omega

/-! ### Operands in range -/

theorem wellFormed_pidEnc {version ptype shf apid : Word} :
    WellFormed (.pidEnc version ptype shf apid) = true ↔
      version.toNat < 8 ∧ ptype.toNat < 2 ∧ shf.toNat < 2 ∧ apid.toNat < 2048 := by
  simp [WellFormed, fitsWidth, and_assoc]

theorem wellFormed_seqEnc {seqflags count : Word} :
    WellFormed (.seqEnc seqflags count) = true ↔ seqflags.toNat < 4 ∧ count.toNat < 16384 := by
  simp [WellFormed, fitsWidth]

theorem wellFormed_pidEnc_setWidth (f : PidFields) :
    WellFormed (.pidEnc (f.version.setWidth 16) (f.ptype.setWidth 16) (f.shf.setWidth 16) (f.apid.setWidth 16)) =
      true := by
  have hversion := f.version.isLt
  have hptype := f.ptype.isLt
  have hshf := f.shf.isLt
  have hapid := f.apid.isLt
  simp only [wellFormed_pidEnc, BitVec.toNat_setWidth]
  omega

theorem wellFormed_seqEnc_setWidth (f : SeqFields) :
    WellFormed (.seqEnc (f.seqflags.setWidth 16) (f.count.setWidth 16)) = true := by
  have hseqflags := f.seqflags.isLt
  have hcount := f.count.isLt
  simp only [wellFormed_seqEnc, BitVec.toNat_setWidth]
  omega

/-- Operands in range are determined by the word (R90). -/
theorem pidEnc_injective_of_wellFormed {v t h a v' t' h' a' : Word} (hwf : WellFormed (.pidEnc v t h a) = true)
    (hwf' : WellFormed (.pidEnc v' t' h' a') = true) (heq : pidEnc v t h a = pidEnc v' t' h' a') :
    v = v' ∧ t = t' ∧ h = h' ∧ a = a' := by
  rw [wellFormed_pidEnc] at hwf hwf'
  have hsum := congrArg BitVec.toNat heq
  rw [pidEnc_toNat, pidEnc_toNat] at hsum
  simp only [← BitVec.toNat_inj]
  omega

/-- Operands in range are determined by the word (R92). -/
theorem seqEnc_injective_of_wellFormed {f c f' c' : Word} (hwf : WellFormed (.seqEnc f c) = true)
    (hwf' : WellFormed (.seqEnc f' c') = true) (heq : seqEnc f c = seqEnc f' c') : f = f' ∧ c = c' := by
  rw [wellFormed_seqEnc] at hwf hwf'
  have hsum := congrArg BitVec.toNat heq
  rw [seqEnc_toNat, seqEnc_toNat] at hsum
  simp only [← BitVec.toNat_inj]
  omega

/-! ### The operations -/

theorem exec_pidEnc (version ptype shf apid : Word) (s : State) :
    exec (.pidEnc version ptype shf apid) s = .next (s.returns (.word (pidEnc version ptype shf apid))) := rfl

theorem exec_pidDec (w : Word) (s : State) : exec (.pidDec w) s = .next (s.returns (.pidFields (pidDec w))) := rfl

theorem exec_seqEnc (seqflags count : Word) (s : State) :
    exec (.seqEnc seqflags count) s = .next (s.returns (.word (seqEnc seqflags count))) := rfl

theorem exec_seqDec (w : Word) (s : State) : exec (.seqDec w) s = .next (s.returns (.seqFields (seqDec w))) := rfl

/-- What is found in `out` after an operation is what the operation returned. -/
theorem returned_eq_out {i : Instr} {s t : State} {o o' : Output} (hexec : exec i s = .next (s.returns o))
    (hnext : exec i s = .next t) (hout : t.out = o') : o = o' := by
  obtain rfl : s.returns o = t := Host.Outcome.next.inj (hexec.symm.trans hnext)
  exact hout

/-- Settles O8: the packed word is the sum of the fields' values, which determines them and reaches every word. -/
theorem pidEncPacksTheMaskedFields : Obligations.PidEncPacksTheMaskedFields := by
  refine ⟨?_, ?_, ?_⟩
  · intro version ptype shf apid s
    rw [exec_pidEnc, ← pidEnc_toNat, BitVec.ofNat_toNat, BitVec.setWidth_eq]
    rfl
  · intro v t h a v' t' h' a' s hwf hwf' heq
    have hword := returned_eq_out (exec_pidEnc v t h a s) (heq.trans (exec_pidEnc v' t' h' a' s)) rfl
    exact pidEnc_injective_of_wellFormed hwf hwf' (Output.word.inj hword)
  · intro w s
    refine ⟨_, _, _, _, wellFormed_pidEnc_setWidth (pidDec w), ?_⟩
    rw [exec_pidEnc, pidEnc_pidDec]
    rfl

/-- Settles O9: each field is a quotient and remainder of the word's value, and the four together are the word. -/
theorem pidDecTakesEachField : Obligations.PidDecTakesEachField := by
  constructor
  · intro w s
    rw [exec_pidDec, pidDec_eq_ofNat]
    rfl
  · intro w s t f hdec hout
    obtain rfl : pidDec w = f := Output.pidFields.inj (returned_eq_out (exec_pidDec w s) hdec hout)
    rw [exec_pidEnc, pidEnc_pidDec]
    rfl

/-- Settles O10: the packed word is the sum of the fields' values, which determines them and reaches every word. -/
theorem seqEncPacksTheMaskedFields : Obligations.SeqEncPacksTheMaskedFields := by
  refine ⟨?_, ?_, ?_⟩
  · intro seqflags count s
    rw [exec_seqEnc, ← seqEnc_toNat, BitVec.ofNat_toNat, BitVec.setWidth_eq]
    rfl
  · intro f c f' c' s hwf hwf' heq
    have hword := returned_eq_out (exec_seqEnc f c s) (heq.trans (exec_seqEnc f' c' s)) rfl
    exact seqEnc_injective_of_wellFormed hwf hwf' (Output.word.inj hword)
  · intro w s
    refine ⟨_, _, wellFormed_seqEnc_setWidth (seqDec w), ?_⟩
    rw [exec_seqEnc, seqEnc_seqDec]
    rfl

/-- Settles O11: each field is a quotient and remainder of the word's value, and the two together are the word. -/
theorem seqDecTakesEachField : Obligations.SeqDecTakesEachField := by
  constructor
  · intro w s
    rw [exec_seqDec, seqDec_eq_ofNat]
    rfl
  · intro w s t f hdec hout
    obtain rfl : seqDec w = f := Output.seqFields.inj (returned_eq_out (exec_seqDec w s) hdec hout)
    rw [exec_seqEnc, seqEnc_seqDec]
    rfl

/-- Settles O12: the decoder gives each operand cut to its field's width, which is its value modulo a power of two and,
in range, the value itself. -/
theorem headerFieldsSurviveTheRoundTrip : Obligations.HeaderFieldsSurviveTheRoundTrip := by
  constructor
  · intro version ptype shf apid w s t henc hout
    obtain rfl := Output.word.inj (returned_eq_out (exec_pidEnc version ptype shf apid s) henc hout)
    refine ⟨_, exec_pidDec _ t, ?_⟩
    rw [pidDec_pidEnc, wellFormed_pidEnc]
    simp only [BitVec.toNat_setWidth, true_and]
    exact fun ⟨hversion, hptype, hshf, hapid⟩ =>
      ⟨Nat.mod_eq_of_lt hversion, Nat.mod_eq_of_lt hptype, Nat.mod_eq_of_lt hshf, Nat.mod_eq_of_lt hapid⟩
  · intro seqflags count w s t henc hout
    obtain rfl := Output.word.inj (returned_eq_out (exec_seqEnc seqflags count s) henc hout)
    refine ⟨_, exec_seqDec _ t, ?_⟩
    rw [seqDec_seqEnc, wellFormed_seqEnc]
    simp only [BitVec.toNat_setWidth, true_and]
    exact fun ⟨hseqflags, hcount⟩ => ⟨Nat.mod_eq_of_lt hseqflags, Nat.mod_eq_of_lt hcount⟩

/-! ### The pure operations -/

/-- Settles O44: the result of a pure operation is written with its operands alone; the other five operations are not
among the seven. -/
theorem pureOperationsAreFunctionsOfTheirOperands : Obligations.PureOperationsAreFunctionsOfTheirOperands := by
  intro i hpure
  cases i with
  | pidEnc version ptype shf apid => exact ⟨.word (pidEnc version ptype shf apid), nofun, fun _ => rfl⟩
  | pidDec w => exact ⟨.pidFields (pidDec w), nofun, fun _ => rfl⟩
  | seqEnc seqflags count => exact ⟨.word (seqEnc seqflags count), nofun, fun _ => rfl⟩
  | seqDec w => exact ⟨.seqFields (seqDec w), nofun, fun _ => rfl⟩
  | pktSer p => exact ⟨.packetImage (pktSer p), nofun, fun _ => rfl⟩
  | pktDes bytes => exact ⟨.packet (pktDes bytes), nofun, fun _ => rfl⟩
  | frmEnc p => exact ⟨.frameImage (frmEnc p), nofun, fun _ => rfl⟩
  | _ => simp [opOf] at hpure

end Sys2Proof.Machine
end

section
/-! The packet model. A byte of an image is a remainder or a quotient of its word's value, and a word read is the sum that
two bytes stand for (R44). Since word and bytes come back from each other, `PKT_SER` and `PKT_DES` are inverse to each
other. -/

namespace Sys2Proof.Machine

theorem lo_eq_ofNat (w : Word) : lo w = BitVec.ofNat 8 (w.toNat % 256) := by
  rw [← lo_toNat, BitVec.ofNat_toNat, BitVec.setWidth_eq]

theorem hi_eq_ofNat (w : Word) : hi w = BitVec.ofNat 8 (w.toNat / 256) := by
  rw [← hi_toNat, BitVec.ofNat_toNat, BitVec.setWidth_eq]

/-- The wire word of a signed value is its two's complement (R13). -/
theorem u16OfI16_toNat_cast (v : Int16) :
    ((u16OfI16 v).toNat : Int) = if 0 ≤ v.toInt then v.toInt else v.toInt + 65536 := by
  have hlow := v.le_toInt
  rw [u16OfI16_toNat]
  split <;> omega

/-- The five words read from an image cover all of it, and each of its bytes is written back from its own word (R105). -/
@[simp] theorem pktSer_pktDes (bs : PacketImage) : pktSer (pktDes bs) = bs := by
  have hbytes : pktSer (pktDes bs) = #v[bs[0], bs[1], bs[2], bs[3], bs[4], bs[5], bs[6], bs[7], bs[8], bs[9]] := by
    simp [pktSer, pktDes]
  rw [hbytes]
  ext i hi : 1
  interval_cases i <;> rfl

/-! ### The operations -/

theorem exec_pktSer (p : Packet) (s : State) : exec (.pktSer p) s = .next (s.returns (.packetImage (pktSer p))) := rfl

theorem exec_pktDes (bs : PacketImage) (s : State) : exec (.pktDes bs) s = .next (s.returns (.packet (pktDes bs))) := rfl

/-- Settles O13: each word's bytes are the remainder and the quotient of its value by 256, and the value of the
temperature's word is its two's complement. -/
theorem pktSerWritesTheFiveWordsLowByteFirst : Obligations.PktSerWritesTheFiveWordsLowByteFirst := by
  intro p s
  refine ⟨(u16OfI16 p.temperature).toNat, u16OfI16_toNat_cast p.temperature, ?_⟩
  simp only [exec_pktSer, pktSer, lo_eq_ofNat, hi_eq_ofNat]
  rfl

/-- Settles O14: the value of each word read is the sum its two bytes stand for, and the fourth is then taken as signed. -/
theorem pktDesReadsTheFiveWordsLowByteFirst : Obligations.PktDesReadsTheFiveWordsLowByteFirst := by
  intro bs s
  refine ⟨pktDes bs, exec_pktDes bs s, le16_toNat _ _, le16_toNat _ _, le16_toNat _ _, ?_, le16_toNat _ _⟩
  rw [← le16_toNat]
  exact i16OfU16_toInt _

/-- Settles O15: the image is `pktSer p`, which `pktDes` takes back to `p`. -/
theorem deserialisingASerialisedPacketGivesItBack : Obligations.DeserialisingASerialisedPacketGivesItBack := by
  intro p s
  refine ⟨pktSer p, exec_pktSer p s, Vector.length_toList, ?_⟩
  rw [exec_pktDes, pktDes_pktSer]
  rfl

/-- Settles O16: the Packet is `pktDes bs`, which `pktSer` takes back to `bs`. -/
theorem serialisingADeserialisedImageGivesItBack : Obligations.SerialisingADeserialisedImageGivesItBack := by
  intro bs s
  refine ⟨pktDes bs, exec_pktDes bs s, ?_⟩
  rw [exec_pktSer, pktSer_pktDes]
  rfl

end Sys2Proof.Machine
end

section
/-! The telemetry packet encoder. A `TM_BUILD` stamps the count it finds and advances it, and no other operation than
`RESET_TX` touches the TX half. Along a program the counts stamped are therefore the count at its start and those that
follow it, modulo 16384. -/

namespace Sys2Proof.Machine

/-! ### The counter and the Packet of one build -/

/-- The 14-bit sum is the sum modulo 16384 (R110). -/
theorem TxHalf.advance_seqcnt_toNat (tx : TxHalf) : tx.advance.seqcnt.toNat = (tx.seqcnt.toNat + 1) % 16384 := by
  rw [advance_seqcnt, BitVec.toNat_add]
  rfl

theorem TxHalf.advance_eq_ofNat (tx : TxHalf) :
    tx.advance = { seqcnt := BitVec.ofNat 14 ((tx.seqcnt.toNat + 1) % 16384) } := by
  rw [← advance_seqcnt_toNat, BitVec.ofNat_toNat, BitVec.setWidth_eq]

section
variable (version ptype shf apid seqflags : Word) (temp : Int16) (hum : Word) (seqcnt : BitVec 14) (s : State)

theorem exec_tmBuild :
    exec (.tmBuild version ptype shf apid seqflags temp hum) s = .next ((s.withTx s.tx.advance).returns
      (.packet (buildPacket version ptype shf apid seqflags temp hum s.tx.seqcnt))) := rfl

/-- The header words of a built Packet by the values of their fields; the count, of 14 bits, is not cut (R110, R113). -/
theorem buildPacket_eq_ofNat :
    buildPacket version ptype shf apid seqflags temp hum seqcnt = {
      packetId := BitVec.ofNat 16
        (version.toNat % 8 * 8192 + ptype.toNat % 2 * 4096 + shf.toNat % 2 * 2048 + apid.toNat % 2048)
      sequenceControl := BitVec.ofNat 16 (seqflags.toNat % 4 * 16384 + seqcnt.toNat)
      dataLength := 3
      temperature := temp
      humidity := hum } := by
  have hcount : (seqcnt.setWidth 16).toNat % 16384 = seqcnt.toNat := by
    have hlt := seqcnt.isLt
    rw [BitVec.toNat_setWidth]
    omega
  rw [← pidEnc_toNat, ← hcount, ← seqEnc_toNat]
  simp only [BitVec.ofNat_toNat, BitVec.setWidth_eq]
  rfl

/-- The count read back from a built Packet is the one it was built with. -/
theorem count_buildPacket :
    (seqDec (buildPacket version ptype shf apid seqflags temp hum seqcnt).sequenceControl).count = seqcnt := by
  simp only [buildPacket, seqDec_seqEnc]
  rw [BitVec.setWidth_setWidth_of_le seqcnt (by decide), BitVec.setWidth_eq]

end

/-- What every build does, whatever its operands. -/
theorem exec_of_opOf_eq_tmBuild {i : Instr} (h : opOf i = .tmBuild) (s : State) :
    ∃ p, exec i s = .next ((s.withTx s.tx.advance).returns (.packet p)) ∧
      (seqDec p.sequenceControl).count = s.tx.seqcnt := by
  cases i with
  | tmBuild version ptype shf apid seqflags temp hum =>
    exact ⟨_, exec_tmBuild .., count_buildPacket ..⟩
  | _ => cases h

/-- Any operation but `TM_BUILD` and `RESET_TX` leaves the TX half as it was (R111). -/
theorem tx_eq_of_exec {i : Instr} {s t : State} (hbuild : opOf i ≠ .tmBuild) (hreset : opOf i ≠ .resetTx)
    (h : exec i s = .next t) : t.tx = s.tx := by
  obtain ⟨rx, o, rfl, -⟩ := (exec_actsOnRxAlone hbuild hreset).eq_next h
  rfl

/-- Settles O17: the build advances the counter, and the words of its Packet are the sums of their fields' values. -/
theorem tmBuildStampsTheCountThenAdvancesIt : Obligations.TmBuildStampsTheCountThenAdvancesIt := by
  intro version ptype shf apid seqflags temp hum s
  rw [exec_tmBuild, TxHalf.advance_eq_ofNat, buildPacket_eq_ofNat]
  rfl

/-- Settles O18: a build leaves the advanced counter; any other operation but `RESET_TX` acts on the RX half alone. -/
theorem onlyTmBuildAndResetTxChangeTheCounter : Obligations.OnlyTmBuildAndResetTxChangeTheCounter := by
  refine ⟨?_, fun _ _ _ => tx_eq_of_exec⟩
  intro i s t hbuild h
  obtain ⟨p, hexec, -⟩ := exec_of_opOf_eq_tmBuild hbuild s
  obtain rfl := Host.Outcome.next.inj (hexec.symm.trans h)
  have hcount := s.tx.advance_seqcnt_toNat
  simp only [State.returns_tx, State.withTx_tx]
  omega

/-! ### The builds of a program -/

@[simp] theorem builtPackets_nil (outs : List Output) : builtPackets [] outs = [] := rfl

theorem builtPackets_cons_of_build {i : Instr} (h : opOf i = .tmBuild) (is : List Instr) (p : Packet)
    (outs : List Output) : builtPackets (i :: is) (.packet p :: outs) = p :: builtPackets is outs := by
  cases i with
  | tmBuild => rfl
  | _ => cases h

theorem builtPackets_cons_of_not_build {i : Instr} (h : opOf i ≠ .tmBuild) (is : List Instr) (o : Output)
    (outs : List Output) : builtPackets (i :: is) (o :: outs) = builtPackets is outs := by
  cases i with
  | tmBuild => exact absurd rfl h
  | _ => rfl

/-- The counts built from any count on: each build finds the count that the one before it left. -/
theorem counts_of_runProgram {is : List Instr} {s t : State} {outs : List Output}
    (hreset : ∀ i ∈ is, opOf i ≠ .resetTx) (hrun : runProgram is s = .next (outs, t)) :
    (builtPackets is outs).map (fun p => (seqDec p.sequenceControl).count.toNat) =
      (List.range (builtPackets is outs).length).map (fun k => (s.tx.seqcnt.toNat + k) % 16384) := by
  induction is generalizing s outs with
  | nil => rfl
  | cons i is ih =>
    obtain ⟨hi, his⟩ := List.forall_mem_cons.mp hreset
    obtain ⟨s', rest, hexec, hrest, rfl⟩ := runProgram_cons_eq_next.mp hrun
    have htail := ih his hrest
    by_cases hbuild : opOf i = .tmBuild
    · obtain ⟨p, hp, hcount⟩ := exec_of_opOf_eq_tmBuild hbuild s
      obtain rfl := Host.Outcome.next.inj (hp.symm.trans hexec)
      have hfirst : (s.tx.seqcnt.toNat + 0) % 16384 = s.tx.seqcnt.toNat := Nat.mod_eq_of_lt s.tx.seqcnt.isLt
      rw [State.returns_out, builtPackets_cons_of_build hbuild, List.map_cons, htail, hcount, List.length_cons,
        List.range_succ_eq_map, List.map_cons, List.map_map, hfirst]
      refine congrArg _ (List.map_congr_left fun k _ => ?_)
      simp only [State.returns_tx, State.withTx_tx, TxHalf.advance_seqcnt_toNat, Function.comp_apply]
      omega
    · rw [builtPackets_cons_of_not_build hbuild, htail, tx_eq_of_exec hbuild hi hexec]

/-- A program of builds runs to its end, since no build stops. -/
theorem runProgram_of_builds {is : List Instr} (hbuilds : ∀ i ∈ is, opOf i = .tmBuild) (s : State) :
    ∃ outs t, runProgram is s = .next (outs, t) ∧ (builtPackets is outs).length = is.length := by
  induction is generalizing s with
  | nil => exact ⟨[], s, rfl, rfl⟩
  | cons i is ih =>
    obtain ⟨hi, his⟩ := List.forall_mem_cons.mp hbuilds
    obtain ⟨p, hp, -⟩ := exec_of_opOf_eq_tmBuild hi s
    obtain ⟨outs, t, hrun, hlength⟩ := ih his ((s.withTx s.tx.advance).returns (.packet p))
    refine ⟨.packet p :: outs, t, runProgram_cons_eq_next.mpr ⟨_, outs, hp, hrun, rfl⟩, ?_⟩
    rw [builtPackets_cons_of_build hi, List.length_cons, List.length_cons, hlength]

/-- Settles O19: the counts from any count on, at the count 0 of reset; and a program of builds runs. -/
theorem theKthBuildCarriesTheCountK : Obligations.TheKthBuildCarriesTheCountK := by
  refine ⟨?_, fun _ s hbuilds => runProgram_of_builds hbuilds s⟩
  intro is s t outs hstart hreset hrun
  have hzero : s.tx.seqcnt.toNat = 0 := by rw [hstart]; rfl
  simpa only [hzero, Nat.zero_add] using counts_of_runProgram hreset hrun

/-! ### A restart and a wrap -/

theorem exec_resetTx (s : State) : exec .resetTx s = .next ((s.withTx { seqcnt := 0 }).returns .none) := rfl

theorem TxHalf.advance_of_wrap {tx : TxHalf} (h : tx.seqcnt.toNat = 16383) : tx.advance = { seqcnt := 0 } := by
  rw [advance_eq_ofNat, h]
  rfl

/-- Settles O20: both builds find the count 0, one as `RESET_TX` left it and one as the wrap did, and the Packet depends
on the operands and the count alone. -/
theorem aRestartLooksLikeAWrap : Obligations.ARestartLooksLikeAWrap := by
  intro version ptype shf apid seqflags temp hum s r hr
  refine ⟨_, _, _, _, _, _, exec_resetTx s, rfl, exec_tmBuild .., rfl, count_buildPacket .., exec_tmBuild ..,
    exec_tmBuild .., rfl, ?_⟩
  rw [State.returns_tx, State.withTx_tx, TxHalf.advance_of_wrap hr]
  rfl

/-! ### `TM_SEND` -/

theorem exec_frmEnc (p : Packet) (s : State) : exec (.frmEnc p) s = .next (s.returns (.frameImage (frmEnc p))) := rfl

/-- What `TM_SEND` does with the Packet that its build returned (R77): the frame is written, and then returned. -/
theorem tmSend_of_build {version ptype shf apid seqflags : Word} {temp : Int16} {hum : Word} {s t : State} {p : Packet}
    (hbuild : exec (.tmBuild version ptype shf apid seqflags temp hum) s = .next t) (hout : t.out = .packet p) :
    tmSend version ptype shf apid seqflags temp hum s =
      .next ((writeFrame (frmEnc p) t).returns (.frameImage (frmEnc p))) := by
  simp only [tmSend, hbuild, andThen_next, hout, exec_frmEnc]
  rfl

/-- Settles O51: the Packet is the one `TM_BUILD` returns, and the frame `FRM_ENC` makes of it is what is written. -/
theorem tmSendPutsTheFrameOfTheBuiltPacketOnTheLink : Obligations.TmSendPutsTheFrameOfTheBuiltPacketOnTheLink := by
  intro version ptype shf apid seqflags temp hum s
  have hbuild := exec_tmBuild version ptype shf apid seqflags temp hum s
  exact ⟨_, _, _, hbuild, rfl, exec_frmEnc _ _, tmSend_of_build hbuild rfl⟩

end Sys2Proof.Machine
end

section
/-! The frame encoder. A frame is the length word 10 followed by the image of its Packet, so its parts are read back by
`le16` and by `PKT_DES`. -/

namespace Sys2Proof.Machine

/-- The first two bytes are those of a word, and `le16` gives it back (R122). -/
theorem le16_frmEnc (p : Packet) : le16 (frmEnc p)[0] (frmEnc p)[1] = 10 := le16_lo_hi 10

theorem frmEnc_toList_drop_two (p : Packet) : (frmEnc p).toList.drop 2 = (pktSer p).toList := by
  rw [frmEnc_toList, List.drop_succ_cons, List.drop_succ_cons, List.drop_zero]

/-- Settles O22: the frame returned is `frmEnc p`, whose last ten bytes are `pktSer p`, which `pktDes` takes back to `p`. -/
theorem aFrameGivesItsPacketBack : Obligations.AFrameGivesItsPacketBack := by
  intro p s t frame hexec hout
  obtain rfl := Host.Outcome.next.inj ((exec_frmEnc p s).symm.trans hexec)
  obtain rfl := Output.frameImage.inj hout
  refine ⟨le16_frmEnc p, pktSer p, (frmEnc_toList_drop_two p).symm, ?_⟩
  rw [exec_pktDes, pktDes_pktSer]
  rfl

/-- Settles O21: the two answers are `pktSer p` and `frmEnc p`, and the second is the first after the length. -/
theorem frmEncPutsTheLengthBeforeThePacket : Obligations.FrmEncPutsTheLengthBeforeThePacket := by
  intro p s
  exact ⟨pktSer p, frmEnc p, exec_pktSer p s, exec_frmEnc p s, frmEnc_toList p⟩

end Sys2Proof.Machine
end

section
/-! The frame decoder. What one poll does is a rule per case of R132 to R136, and, for all cases together, a poll that
answers either changes nothing or makes progress (`RxHalf.Progress`). The invariant, the parity of the bytes consumed and
the end of a drain follow from the second; the results of a drain over given bytes follow from the first. -/

namespace Sys2Proof.Machine

/-! ### The length word -/

theorem expectedLen_toNat : Config.expectedLen.toNat = 10 := rfl

theorem le16_eq_ofNat (b0 b1 : Byte) : le16 b0 b1 = BitVec.ofNat 16 (b0.toNat + 256 * b1.toNat) := by
  rw [← le16_toNat, BitVec.ofNat_toNat, BitVec.setWidth_eq]

theorem le16_eq_expectedLen_iff {b0 b1 : Byte} :
    le16 b0 b1 = Config.expectedLen ↔ b0.toNat + 256 * b1.toNat = 10 := by
  rw [← BitVec.toNat_inj, le16_toNat, expectedLen_toNat]

/-- `0A 00` is the only length word that is accepted (R134). -/
theorem bytes_of_le16_eq_expectedLen {b0 b1 : Byte} (h : le16 b0 b1 = Config.expectedLen) : b0 = 0x0A ∧ b1 = 0x00 := by
  constructor
  · rw [← lo_le16 b0 b1, h]; rfl
  · rw [← hi_le16 b0 b1, h]; rfl

/-! ### What one poll does, case by case -/

theorem exec_decPoll (s : State) : exec .decPoll s = execDecPoll s := rfl

theorem exec_decPoll_of_awaitingLength {s : State} (hd : s.rx.dstate = .awaitingLength) :
    exec .decPoll s = .next (pollLength s) := by
  rw [exec_decPoll, execDecPoll, hd]

theorem exec_decPoll_of_awaitingBody {s : State} {n : Word} (hd : s.rx.dstate = .awaitingBody n) :
    exec .decPoll s = pollBody n s := by
  rw [exec_decPoll, execDecPoll, hd]

section
variable {s : State} {b0 b1 : Byte} {rest : List Byte}

theorem exec_decPoll_of_short_length (hd : s.rx.dstate = .awaitingLength) (hlen : s.rx.rxbuf.length < 2) :
    exec .decPoll s = .next (notYet s) := by
  rw [exec_decPoll_of_awaitingLength hd]
  rcases pollLength_cases s with ⟨-, he⟩ | ⟨b0, b1, rest, hbuf, -⟩ | ⟨b0, b1, rest, hbuf, -⟩
  · rw [he]
  · simp [hbuf] at hlen
  · simp [hbuf] at hlen

theorem exec_decPoll_of_good_length (hd : s.rx.dstate = .awaitingLength) (hbuf : s.rx.rxbuf = b0 :: b1 :: rest)
    (hgood : le16 b0 b1 = Config.expectedLen) :
    exec .decPoll s = .next (acceptLength Config.expectedLen rest s) := by
  rw [exec_decPoll_of_awaitingLength hd]
  simp [pollLength, hbuf, hgood]

theorem exec_decPoll_of_bad_length (hd : s.rx.dstate = .awaitingLength) (hbuf : s.rx.rxbuf = b0 :: b1 :: rest)
    (hbad : le16 b0 b1 ≠ Config.expectedLen) :
    exec .decPoll s = .next (reportFramingError (le16 b0 b1) rest s) := by
  rw [exec_decPoll_of_awaitingLength hd]
  simp [pollLength, hbuf, hbad]

theorem exec_decPoll_of_short_body {n : Word} (hd : s.rx.dstate = .awaitingBody n)
    (hlen : s.rx.rxbuf.length < n.toNat) : exec .decPoll s = .next (notYet s) := by
  rw [exec_decPoll_of_awaitingBody hd]
  exact if_pos hlen

theorem exec_decPoll_of_body {bs : PacketImage} (hd : s.rx.dstate = .awaitingBody Config.expectedLen)
    (hbuf : s.rx.rxbuf = bs.toList ++ rest) : exec .decPoll s = .next (emitPacket (pktDes bs) rest s) := by
  rw [exec_decPoll_of_awaitingBody hd]
  rcases pollBody_cases Config.expectedLen s with ⟨hlt, -⟩ | ⟨image, rest', -, hbuf', he⟩ | ⟨-, hne, -⟩
  · simp [hbuf, expectedLen_toNat] at hlt
  · obtain ⟨himage, rfl⟩ := List.append_inj (hbuf'.symm.trans hbuf) (by simp)
    rw [he, Vector.toList_inj.mp himage]
  · exact absurd expectedLen_toNat hne

end

/-- Settles O25: fewer than two bytes are not a length word. -/
theorem pollWithLessThanALengthReturnsNotYet : Obligations.PollWithLessThanALengthReturnsNotYet :=
  fun _ hd hlen => exec_decPoll_of_short_length hd hlen

/-- Settles O26: the word compared is the one reported. -/
theorem pollOfABadLengthDropsItsTwoBytes : Obligations.PollOfABadLengthDropsItsTwoBytes := by
  intro s b0 b1 rest hd hbuf hbad
  rw [exec_decPoll_of_bad_length hd hbuf (mt le16_eq_expectedLen_iff.mp hbad), le16_eq_ofNat]
  rfl

/-- Settles O27: only `0A 00` is the word 10, and the poll accepts it. -/
theorem pollOfTheGoodLengthAwaitsTheBody : Obligations.PollOfTheGoodLengthAwaitsTheBody := by
  intro s b0 b1 rest hd hbuf hsum
  have hgood := le16_eq_expectedLen_iff.mpr hsum
  obtain ⟨hb0, hb1⟩ := bytes_of_le16_eq_expectedLen hgood
  exact ⟨hb0, hb1, exec_decPoll_of_good_length hd hbuf hgood⟩

/-- Settles O28: fewer than `n` bytes are not a body. -/
theorem pollWithLessThanABodyReturnsNotYet : Obligations.PollWithLessThanABodyReturnsNotYet :=
  fun _ _ hd hlen => exec_decPoll_of_short_body hd hlen

/-- Settles O29: the Packet emitted is the one `PKT_DES` makes of the ten bytes. -/
theorem pollOfABodyEmitsItsPacket : Obligations.PollOfABodyEmitsItsPacket :=
  fun s bs _ hd hbuf => ⟨pktDes bs, exec_pktDes bs s, exec_decPoll_of_body hd hbuf⟩

/-! ### What one poll does, in all cases -/

/-- What a poll that makes progress with result `r` does to the RX half: one or more pairs of its oldest bytes are
consumed, and `DSTATE` is left in a legal form (R133, R134, R136). -/
structure RxHalf.Progress (rx : RxHalf) (r : PollResult) (rx' : RxHalf) : Prop where
  isProgress : r.isProgress = true
  legal : rx'.dstate.legal = true
  consumed : ∃ pairs bs, 0 < pairs ∧ bs.length = 2 * pairs ∧ rx.rxbuf = bs ++ rx'.rxbuf

theorem RxHalf.Progress.avail_add_two_le {rx rx' : RxHalf} {r : PollResult} (h : rx.Progress r rx') :
    rx'.avail + 2 ≤ rx.avail := by
  obtain ⟨pairs, bs, hpos, hlen, hbuf⟩ := h.consumed
  simp only [RxHalf.avail, hbuf, List.length_append]
  omega

/-- A poll that answers makes progress, or returns `NOT_YET` and changes nothing; in the legal forms the latter happens
with fewer than ten bytes only. -/
theorem exec_decPoll_cases {s t : State} (h : exec .decPoll s = .next t) :
    (t = notYet s ∧ (s.rx.dstate.legal = true → s.rx.avail < 10)) ∨
    ∃ r rx, t = (s.withRx rx).returns (.poll r) ∧ s.rx.Progress r rx := by
  rcases execDecPoll_cases h with ⟨rfl, ⟨-, hlen⟩ | ⟨n, hd, hlen⟩⟩ | ⟨b0, b1, rest, -, hbuf, -, rfl⟩ |
    ⟨b0, b1, rest, -, hbuf, -, rfl⟩ | ⟨n, image, rest, -, -, hbuf, rfl⟩
  · exact .inl ⟨rfl, fun _ => Nat.lt_trans hlen (by decide)⟩
  · refine .inl ⟨rfl, fun hlegal => ?_⟩
    rw [hd, DState.legal_awaitingBody] at hlegal
    rwa [hlegal] at hlen
  · exact .inr ⟨_, _, rfl, rfl, rfl, 1, [b0, b1], by decide, rfl, hbuf⟩
  · exact .inr ⟨_, _, rfl, rfl, rfl, 1, [b0, b1], by decide, rfl, hbuf⟩
  · exact .inr ⟨_, _, rfl, rfl, rfl, 5, image.toList, by decide, by simp, hbuf⟩

/-- In the legal forms a poll always answers (R138). -/
theorem exec_decPoll_cases_of_legal {s : State} (h : s.rx.dstate.legal = true) :
    (exec .decPoll s = .next (notYet s) ∧ s.rx.avail < 10) ∨
    ∃ r rx, exec .decPoll s = .next ((s.withRx rx).returns (.poll r)) ∧ s.rx.Progress r rx := by
  obtain ⟨t, ht⟩ := execDecPoll_of_legal h
  rcases exec_decPoll_cases ht with ⟨rfl, hlen⟩ | ⟨r, rx, rfl, hprogress⟩
  · exact .inl ⟨ht, hlen h⟩
  · exact .inr ⟨r, rx, ht, hprogress⟩

/-- No poll reads what was returned before (R29). -/
theorem exec_decPoll_returns (s : State) (o : Output) : exec .decPoll (s.returns o) = exec .decPoll s := rfl

/-- Everything an operation that answers can have done to the RX half. -/
theorem exec_rx_cases {i : Instr} {s t : State} (h : exec i s = .next t) :
    (opOf i ≠ .rxPush ∧ t.rx = s.rx) ∨
    (∃ b, i = .rxPush b ∧ hasRoom Config.rxDepth s.rx.avail = true ∧ t.rx = s.rx.push b) ∨
    (∃ r, i = .decPoll ∧ s.rx.Progress r t.rx) ∨
    (i = .resetRx ∧ t.rx = State.reset.rx) := by
  cases i with
  | rxPush b =>
    obtain ⟨hroom, rfl⟩ := pushByte_cases h
    exact .inr (.inl ⟨b, rfl, hroom, rfl⟩)
  | decPoll =>
    rcases exec_decPoll_cases h with ⟨rfl, -⟩ | ⟨r, rx, rfl, hprogress⟩
    · exact .inl ⟨nofun, rfl⟩
    · exact .inr (.inr (.inl ⟨r, rfl, hprogress⟩))
  | resetRx => cases h; exact .inr (.inr (.inr ⟨rfl, rfl⟩))
  | _ => cases h; exact .inl ⟨nofun, rfl⟩

/-- Settles O31: in the legal forms a poll answers, and what it writes is the RX half and the result. -/
theorem pollAlwaysAnswersOneResult : Obligations.PollAlwaysAnswersOneResult := by
  intro s hlegal
  rcases exec_decPoll_cases_of_legal hlegal with ⟨hpoll, -⟩ | ⟨r, rx, hpoll, hprogress⟩
  · exact ⟨_, _, hpoll, rfl, hlegal, rfl, rfl, rfl⟩
  · exact ⟨_, _, hpoll, rfl, hprogress.legal, rfl, rfl, rfl⟩

/-- Settles O32: a poll acts on the RX half alone. -/
theorem pollDependsOnTheRxHalfOnly : Obligations.PollDependsOnTheRxHalfOnly := by
  intro s s' t hrx h
  obtain ⟨rx, o, rfl, hall⟩ := execDecPoll_actsOnRxAlone.eq_next h
  exact ⟨_, hall s' hrx.symm, rfl, rfl⟩

/-! ### The invariant -/

theorem State.Inv.of_rx_eq {s t : State} (hs : s.Inv) (hrx : t.rx = s.rx) : t.Inv := by
  rw [State.Inv, hrx]
  exact hs

theorem State.Inv.of_rx_eq_push {s t : State} {b : Byte} (hs : s.Inv) (hroom : hasRoom Config.rxDepth s.rx.avail = true)
    (hrx : t.rx = s.rx.push b) : t.Inv := by
  obtain ⟨hlegal, -⟩ := hs
  have hlen : (s.rx.push b).avail = s.rx.avail + 1 := List.length_append
  rw [State.Inv, hrx, hlen]
  exact ⟨hlegal, withinDepth_of_hasRoom hroom⟩

theorem exec_keeps_inv {i : Instr} {s t : State} (hs : s.Inv) (h : exec i s = .next t) : t.Inv := by
  rcases exec_rx_cases h with ⟨-, hrx⟩ | ⟨b, -, hroom, hrx⟩ | ⟨r, -, hprogress⟩ | ⟨-, hrx⟩
  · exact hs.of_rx_eq hrx
  · exact State.Inv.of_rx_eq_push hs hroom hrx
  · obtain ⟨-, hwithin⟩ := hs
    have hle := hprogress.avail_add_two_le
    exact ⟨hprogress.legal, withinDepth_mono (by omega) hwithin⟩
  · exact State.reset_inv.of_rx_eq hrx

theorem runCall_keeps_inv {bytes : List Byte} {s t : State} (hs : s.Inv) (h : runCall bytes s = .next t) : t.Inv := by
  cases hdecode : decodeCall bytes with
  | ok i => exact exec_keeps_inv hs ((runCall_of_ok hdecode s).symm.trans h)
  | error r => cases (runCall_of_error hdecode s).symm.trans h

theorem deliverByte_keeps_inv {s t : State} (hs : s.Inv) (h : deliverByte Config.rxDepth s = .next t) : t.Inv := by
  rcases deliverByte_cases Config.rxDepth s with ⟨he, -⟩ | ⟨b, rest, -, hroom, he⟩
  · cases he.symm.trans h; exact hs.of_rx_eq rfl
  · cases he.symm.trans h; exact State.Inv.of_rx_eq_push hs hroom rfl

theorem runEvent_keeps_inv {e : Event} {s t : State} (hs : s.Inv) (h : runEvent e s = .next t) : t.Inv := by
  cases e with
  | call bytes => exact runCall_keeps_inv hs h
  | deliver => exact deliverByte_keeps_inv hs h
  | write frame => cases h; exact hs.of_rx_eq rfl

/-- Settles O46: an idle step leaves the RX half as it was, and every thing an agent does keeps the invariant. -/
theorem stepKeepsTheInvariant : Obligations.StepKeepsTheInvariant := by
  intro s t hs h
  cases hp : s.pending with
  | nil =>
    rw [step, hp] at h
    cases h
    exact hs.of_rx_eq rfl
  | cons e es =>
    rw [step_of_pending_cons hp] at h
    exact runEvent_keeps_inv (s := { s with pending := es }) (hs.of_rx_eq rfl) h

/-! ### What a result says was consumed -/

theorem eq_decPoll_of_out_poll {i : Instr} {s t : State} {r : PollResult} (h : exec i s = .next t)
    (hout : t.out = .poll r) : i = .decPoll := by
  cases i with
  | decPoll => rfl
  | rxPush b =>
    obtain ⟨-, rfl⟩ := pushByte_cases h
    cases hout
  | _ => cases h; cases hout

/-- Settles O33: each of the four things a poll can do has its own result, and consumes what R139 says. -/
theorem noPartOfABodyIsSeenBeforeItsPacket : Obligations.NoPartOfABodyIsSeenBeforeItsPacket := by
  intro i s t r h hout
  obtain rfl := eq_decPoll_of_out_poll h hout
  refine ⟨rfl, ?_⟩
  rcases execDecPoll_cases h with ⟨rfl, -⟩ | ⟨b0, b1, rest, hd, hbuf, hgood, rfl⟩ |
    ⟨b0, b1, rest, hd, hbuf, hbad, rfl⟩ | ⟨n, image, rest, hd, hn, hbuf, rfl⟩
  · cases hout
    exact ⟨fun _ => rfl, nofun, nofun, nofun⟩
  · cases hout
    obtain ⟨rfl, rfl⟩ := bytes_of_le16_eq_expectedLen hgood
    exact ⟨nofun, fun _ => ⟨hd, rfl, hbuf⟩, nofun, nofun⟩
  · cases hout
    refine ⟨nofun, nofun, ?_, nofun⟩
    rintro len ⟨⟩
    exact ⟨hd, rfl, hbad, b0, b1, rfl, hbuf⟩
  · cases hout
    obtain rfl : n = 10 := BitVec.eq_of_toNat_eq hn
    refine ⟨nofun, nofun, nofun, ?_⟩
    rintro p ⟨⟩
    exact ⟨hd, rfl, image, rfl, hbuf⟩

/-! ### Programs -/

theorem pushedBytes_cons_of_not_push {i : Instr} (h : opOf i ≠ .rxPush) (is : List Instr) :
    pushedBytes (i :: is) = pushedBytes is := by
  cases i with
  | rxPush b => exact absurd rfl h
  | _ => rfl

theorem pushedBytes_cons_push (b : Byte) (is : List Instr) : pushedBytes (.rxPush b :: is) = b :: pushedBytes is := rfl

/-- Without `RESET_RX`, what is left in `RXBUF` is what it held and what was pushed, less some pairs of bytes (R144). -/
theorem rxbuf_of_runProgram {is : List Instr} {s t : State} {outs : List Output} (hreset : ∀ i ∈ is, opOf i ≠ .resetRx)
    (hrun : runProgram is s = .next (outs, t)) :
    ∃ pairs bs, bs.length = 2 * pairs ∧ s.rx.rxbuf ++ pushedBytes is = bs ++ t.rx.rxbuf := by
  induction is generalizing s outs with
  | nil =>
    cases hrun
    exact ⟨0, [], rfl, List.append_nil _⟩
  | cons i is ih =>
    obtain ⟨hi, his⟩ := List.forall_mem_cons.mp hreset
    obtain ⟨s', rest, hexec, hrest, -⟩ := runProgram_cons_eq_next.mp hrun
    obtain ⟨pairs, bs, hlen, hbytes⟩ := ih his hrest
    rcases exec_rx_cases hexec with ⟨hpush, hrx⟩ | ⟨b, rfl, -, hrx⟩ | ⟨r, rfl, hprogress⟩ | ⟨rfl, -⟩
    · rw [pushedBytes_cons_of_not_push hpush, ← hrx]
      exact ⟨pairs, bs, hlen, hbytes⟩
    · refine ⟨pairs, bs, hlen, ?_⟩
      rw [← hbytes, hrx, RxHalf.push_rxbuf, pushedBytes_cons_push, List.append_assoc, List.singleton_append]
    · obtain ⟨pairs', bs', -, hlen', hbuf⟩ := hprogress.consumed
      refine ⟨pairs' + pairs, bs' ++ bs, by rw [List.length_append]; omega, ?_⟩
      rw [pushedBytes_cons_of_not_push (by decide), hbuf, List.append_assoc, hbytes, List.append_assoc]
    · exact absurd rfl hi

/-- Settles O34: the pairs consumed are the first bytes of what was pushed, since `RXBUF` held none. -/
theorem anEvenNumberOfBytesIsConsumed : Obligations.AnEvenNumberOfBytesIsConsumed := by
  intro is s t outs hstart hreset hrun
  obtain ⟨pairs, bs, hlen, hbytes⟩ := rxbuf_of_runProgram hreset hrun
  replace hbytes : pushedBytes is = bs ++ t.rx.rxbuf := by rw [← hbytes, hstart]; rfl
  refine ⟨pairs, ?_, ?_⟩
  · rw [hbytes, List.length_append]; omega
  · rw [hbytes, ← hlen, List.drop_left]

/-- However pushes and polls interleave, the results are those owed for what `RXBUF` held and what was pushed, but for
the ones still owed at the end (R140). -/
theorem owes_of_runProgram {is : List Instr} {s t : State} {outs : List Output} {rs : List PollResult}
    (his : ∀ i ∈ is, opOf i = .decPoll ∨ opOf i = .rxPush) (hrun : runProgram is s = .next (outs, t))
    (h : s.rx.dstate.Owes (s.rx.rxbuf ++ pushedBytes is) rs) :
    ∃ rs', progressOf outs ++ rs' = rs ∧ t.rx.dstate.Owes t.rx.rxbuf rs' := by
  induction is generalizing s outs rs with
  | nil =>
    cases hrun
    rw [pushedBytes, List.append_nil] at h
    exact ⟨rs, rfl, h⟩
  | cons i is ih =>
    obtain ⟨hi, his'⟩ := List.forall_mem_cons.mp his
    obtain ⟨s', rest, hexec, hrest, rfl⟩ := runProgram_cons_eq_next.mp hrun
    cases i with
    | rxPush b =>
      obtain ⟨-, rfl⟩ := pushByte_cases hexec
      refine ih (outs := rest) his' hrest ?_
      rwa [pushedBytes_cons_push, ← List.singleton_append, ← List.append_assoc] at h
    | decPoll =>
      rcases exec_decPoll_of_owes (incoming := pushedBytes is) h with ⟨hpoll, -⟩ | ⟨r, rs', rx, rfl, hr, hpoll, h'⟩
      · cases hpoll.symm.trans hexec
        exact ih (outs := rest) his' hrest h
      · cases hpoll.symm.trans hexec
        obtain ⟨owed, rfl, howed⟩ := ih his' hrest h'
        refine ⟨owed, ?_, howed⟩
        simp [progressOf, hr]
    | _ => simp [opOf] at hi

theorem hasRoom_of_withinDepth {depth : RxDepth} {n m : Nat} (hlt : m < n) (h : withinDepth depth n = true) :
    hasRoom depth m = true := by
  cases depth with
  | bounded above => rw [hasRoom_bounded]; simp [withinDepth] at h; omega
  | unbounded => exact hasRoom_unbounded m

/-- A push that a full buffer holds off has a step after the next poll: a full buffer holds ten bytes, so the poll makes
progress and leaves room. -/
theorem pushByte_after_poll {depth : RxDepth} {b : Byte} {s : State} (hlegal : s.rx.dstate.legal = true)
    (hwithin : withinDepth depth s.rx.avail = true) (hfull : pushByte depth b s = .fault .rxBufFull) :
    ∃ t u, exec .decPoll s = .next t ∧ pushByte depth b t = .next u := by
  rcases exec_decPoll_cases_of_legal hlegal with ⟨-, hlt⟩ | ⟨r, rx, hpoll, hprogress⟩
  · cases (pushByte_of_room (hasRoom_of_lt_ten depth hlt)).symm.trans hfull
  · have hless := hprogress.avail_add_two_le
    exact ⟨_, _, hpoll, pushByte_of_room (hasRoom_of_withinDepth (by simp; omega) hwithin)⟩

/-- Settles O35: at the start the results owed are those of all the Packets framed; the run pays some and a drain the
others. -/
theorem fragmentationDoesNotMatter : Obligations.FragmentationDoesNotMatter := by
  refine ⟨?_, fun _ _ _ => pushByte_after_poll⟩
  intro ps is s t outs hstart his hpushed hrun
  have howes : s.rx.dstate.Owes (s.rx.rxbuf ++ pushedBytes is) (cleanResults ps) := by
    rw [hstart, hpushed]
    exact .frames ps
  obtain ⟨rs, hresults, howed⟩ := owes_of_runProgram his hrun howes
  obtain ⟨u, hdrain, hu⟩ := decDrain_of_owes howed
  exact ⟨rs, u, hdrain, hresults, hu⟩

/-! ### A parked decoder -/

theorem runProgram_polls_of_short_body {s : State} {n : Word} (hd : s.rx.dstate = .awaitingBody n)
    (hlen : s.rx.rxbuf.length < n.toNat) (k : Nat) :
    ∃ t, runProgram (List.replicate k .decPoll) s = .next (List.replicate k (.poll .notYet), t) ∧
      t.rx = s.rx ∧ t.tx = s.tx ∧ t.link = s.link := by
  induction k generalizing s with
  | zero => exact ⟨s, rfl, rfl, rfl, rfl⟩
  | succ k ih =>
    obtain ⟨t, hrun, hframe⟩ := ih (s := notYet s) hd hlen
    exact ⟨t, runProgram_cons_eq_next.mpr ⟨_, _, exec_decPoll_of_short_body hd hlen, hrun, rfl⟩, hframe⟩

/-- Settles O39: a poll short of a body changes nothing, and a push, the only other operation that writes the RX half
beside `RESET_RX`, leaves `DSTATE` as it was. -/
theorem aParkedDecoderStaysParked : Obligations.AParkedDecoderStaysParked := by
  refine ⟨fun k _ _ hd hlen => runProgram_polls_of_short_body hd hlen k, ?_⟩
  intro i s t hd hlen h hleft
  rcases exec_rx_cases h with ⟨-, hrx⟩ | ⟨b, -, -, hrx⟩ | ⟨r, rfl, -⟩ | ⟨hreset, -⟩
  · rw [hrx] at hleft
    exact absurd hd hleft
  · rw [hrx] at hleft
    exact absurd hd hleft
  · cases (exec_decPoll_of_short_body hd hlen).symm.trans h
    exact absurd hd hleft
  · exact hreset

/-! ### Draining -/

/-- Since every poll that makes progress consumes bytes, any fuel above the occupancy is enough and gives the same. -/
theorem drainWith_eq_of_avail_lt {fuel fuel' : Nat} {s : State} (hfuel : s.rx.avail < fuel)
    (hfuel' : s.rx.avail < fuel') : drainWith fuel s = drainWith fuel' s := by
  induction fuel generalizing s fuel' with
  | zero => exact absurd hfuel (Nat.not_lt_zero _)
  | succ fuel ih =>
    cases fuel' with
    | zero => exact absurd hfuel' (Nat.not_lt_zero _)
    | succ fuel' =>
      cases hpoll : exec .decPoll s with
      | next t =>
        rcases exec_decPoll_cases hpoll with ⟨rfl, -⟩ | ⟨r, rx, rfl, hprogress⟩
        · rw [drainWith_notYet hpoll rfl, drainWith_notYet hpoll rfl]
        · have hless := hprogress.avail_add_two_le
          rw [drainWith_progress hpoll rfl hprogress.isProgress, drainWith_progress hpoll rfl hprogress.isProgress,
            ih (fuel' := fuel') (by simp; omega) (by simp; omega)]
      | fault r => simp [drainWith, hpoll]
      | refused r => simp [drainWith, hpoll]

theorem decDrain_returns (s : State) (o : Output) : decDrain (s.returns o) = decDrain s := by
  simp only [decDrain, drainWith, exec_decPoll_returns, State.returns_rx]

theorem decDrain_of_notYet {s : State} (h : exec .decPoll s = .next (notYet s)) : decDrain s = .next ([], notYet s) :=
  drainWith_notYet h rfl

/-- A drain whose first poll makes progress goes on as the drain of the RX half that poll leaves. -/
theorem decDrain_of_progress {s u : State} {rx : RxHalf} {r : PollResult} {rs : List PollResult}
    (hpoll : exec .decPoll s = .next ((s.withRx rx).returns (.poll r))) (hr : r.isProgress = true)
    (hdrain : decDrain (s.withRx rx) = .next (rs, u)) : decDrain s = .next (r :: rs, u) := by
  rcases exec_decPoll_cases hpoll with ⟨he, -⟩ | ⟨r', rx', he, hprogress⟩
  · obtain rfl : r = .notYet := Output.poll.inj (congrArg State.out he)
    cases hr
  · obtain rfl : rx = rx' := congrArg State.rx he
    have hless := hprogress.avail_add_two_le
    have hrest : drainWith s.rx.avail ((s.withRx rx).returns (.poll r)) = .next (rs, u) := by
      rw [← hdrain, ← decDrain_returns (s.withRx rx) (.poll r)]
      exact drainWith_eq_of_avail_lt (by simp; omega) (Nat.lt_succ_self _)
    rw [decDrain, drainWith_progress hpoll rfl hr, hrest]
    rfl

/-- In the legal forms a drain ends at a poll that changes nothing: by induction on the occupancy. -/
theorem decDrain_ends {s : State} (hlegal : s.rx.dstate.legal = true) :
    ∃ rs t, decDrain s = .next (rs, t) ∧ (∀ r ∈ rs, r.isProgress = true) ∧ 2 * rs.length ≤ s.rx.avail ∧
      t.out = .poll .notYet ∧ exec .decPoll t = .next t := by
  induction hn : s.rx.avail using Nat.strong_induction_on generalizing s with
  | _ n ih =>
    rcases exec_decPoll_cases_of_legal hlegal with ⟨hpoll, -⟩ | ⟨r, rx, hpoll, hprogress⟩
    · exact ⟨[], notYet s, decDrain_of_notYet hpoll, nofun, Nat.zero_le _, rfl, hpoll⟩
    · have hless := hprogress.avail_add_two_le
      obtain ⟨rs, t, hdrain, hall, hlen, hend⟩ := ih rx.avail (by omega) (s := s.withRx rx) hprogress.legal rfl
      refine ⟨r :: rs, t, decDrain_of_progress hpoll hprogress.isProgress hdrain,
        List.forall_mem_cons.mpr ⟨hprogress.isProgress, hall⟩, ?_, hend⟩
      rw [List.length_cons]
      omega

/-- Settles O53: a drain ends, two bytes at least for each result. -/
theorem decDrainEndsAtNotYet : Obligations.DecDrainEndsAtNotYet := fun _ => decDrain_ends

/-! ### Draining given bytes -/

section
variable {s u : State} {rest : List Byte} {rs : List PollResult}

/-- A length word that is accepted and the ten bytes after it give `LEN_OK` and a `PACKET`, whatever they are (R141). -/
theorem decDrain_of_length_and_body {bs : PacketImage} (hd : s.rx.dstate = .awaitingLength)
    (hbuf : s.rx.rxbuf = 0x0A :: 0x00 :: (bs.toList ++ rest))
    (hdrain : decDrain (s.withRx { dstate := .awaitingLength, rxbuf := rest }) = .next (rs, u)) :
    decDrain s = .next (.lenOk :: .packet (pktDes bs) :: rs, u) :=
  decDrain_of_progress (exec_decPoll_of_good_length hd hbuf rfl) rfl
    (decDrain_of_progress (exec_decPoll_of_body rfl rfl) rfl hdrain)

theorem exec_decPoll_of_bad_word {w : Word} (hd : s.rx.dstate = .awaitingLength) (hbad : w ≠ Config.expectedLen)
    (hbuf : s.rx.rxbuf = bytesLe16 w ++ rest) : exec .decPoll s = .next (reportFramingError w rest s) := by
  have hpoll := exec_decPoll_of_bad_length hd hbuf (by rwa [le16_lo_hi])
  rwa [le16_lo_hi] at hpoll

/-- Each word that is not 10 gives one error and leaves with its two bytes (R141). -/
theorem decDrain_of_bad_words {ws : List Word} (hd : s.rx.dstate = .awaitingLength)
    (hbad : ∀ w ∈ ws, w ≠ Config.expectedLen) (hbuf : s.rx.rxbuf = wordBytes ws ++ rest)
    (hdrain : decDrain (s.withRx { dstate := .awaitingLength, rxbuf := rest }) = .next (rs, u)) :
    decDrain s = .next (ws.map .framingError ++ rs, u) := by
  induction ws generalizing s with
  | nil =>
    have hs : s.withRx { dstate := .awaitingLength, rxbuf := rest } = s := by
      rw [← hd, show rest = s.rx.rxbuf from hbuf.symm]
      rfl
    rwa [hs] at hdrain
  | cons w ws ih =>
    obtain ⟨hw, hws⟩ := List.forall_mem_cons.mp hbad
    rw [wordBytes, List.append_assoc] at hbuf
    exact decDrain_of_progress (exec_decPoll_of_bad_word hd hw hbuf) rfl
      (ih (s := s.withRx { dstate := .awaitingLength, rxbuf := wordBytes ws ++ rest }) rfl hws rfl hdrain)

theorem decDrain_of_bad_words_and_frame {ws : List Word} {p : Packet} (hd : s.rx.dstate = .awaitingLength)
    (hbad : ∀ w ∈ ws, w ≠ Config.expectedLen) (hbuf : s.rx.rxbuf = wordBytes ws ++ (frmEnc p).toList) :
    ∃ u, decDrain s = .next (ws.map .framingError ++ [.lenOk, .packet p], u) ∧ u.rx = State.reset.rx := by
  have howes : DState.Owes .awaitingLength (frmEnc p).toList [.lenOk, .packet p] := by
    simpa [frameStream, cleanResults] using DState.Owes.frames [p]
  obtain ⟨u, hdrain, hu⟩ :=
    decDrain_of_owes (s := s.withRx { dstate := .awaitingLength, rxbuf := (frmEnc p).toList }) howes
  exact ⟨u, decDrain_of_bad_words hd hbad hbuf hdrain, hu⟩

end

/-- Settles O36: the bad words go one by one, and what follows them is drained as if they had not been there. -/
theorem badLengthsAreDroppedOneByOne : Obligations.BadLengthsAreDroppedOneByOne := by
  refine ⟨?_, fun _ _ _ => decDrain_of_bad_words_and_frame, ?_⟩
  · intro s w rest hd hbad hbuf
    exact exec_decPoll_of_bad_word hd hbad hbuf
  · intro s u ws bs rest rs hd hbad hbuf hdrain
    exact ⟨u, decDrain_of_bad_words hd hbad hbuf (decDrain_of_length_and_body rfl rfl hdrain), rfl⟩

/-! ### A decoder out of step -/

theorem drop_wordBytes (k : Nat) (ws : List Word) : (wordBytes ws).drop (2 * k) = wordBytes (ws.drop k) := by
  induction k generalizing ws with
  | zero => rfl
  | succ k ih =>
    cases ws with
    | nil => simp [wordBytes]
    | cons w ws => exact ih ws

theorem pktSer_toList (p : Packet) : (pktSer p).toList = wordBytes (wireWords p) := rfl

/-- The rest of a frame from an even offset on is the rest of its words. -/
theorem drop_frmEnc_toList (p : Packet) (k : Nat) :
    (frmEnc p).toList.drop (2 * k + 2) = wordBytes ((wireWords p).drop k) := by
  rw [Nat.add_comm, ← List.drop_drop, frmEnc_toList_drop_two, pktSer_toList, drop_wordBytes]

/-- Settles O37: the rest of the frame is a list of bad words, and a frame follows them. -/
theorem evenMisalignmentHealsAtTheNextFrame : Obligations.EvenMisalignmentHealsAtTheNextFrame := by
  intro s p q k _ hd hbad hbuf
  rw [drop_frmEnc_toList] at hbuf
  exact decDrain_of_bad_words_and_frame hd hbad hbuf

/-- An image whose `packet_id` is 10 begins with the bytes of a length word that is accepted. -/
theorem pktSer_toList_of_packetId {p : Packet} (h : p.packetId = 10) :
    (pktSer p).toList = 0x0A :: 0x00 :: wordBytes ((wireWords p).drop 1) := by
  rw [pktSer_toList, wireWords, h]
  rfl

/-- The body that is falsely taken: the words after `packet_id` and the next frame's length word (R188). -/
theorem pktSer_falsePacket_toList (p : Packet) :
    (pktSer (falsePacket p)).toList = wordBytes ((wireWords p).drop 1) ++ [0x0A, 0x00] := by
  simp [pktSer_toList, wireWords, falsePacket, wordBytes, bytesLe16, lo, hi, Config.expectedLen]

/-- The image of one frame and the next frame, as a decoder that falsely locks reads them: a length word, the false
body, and the image of the next frame. -/
theorem pktSer_append_frameStream_cons {p : Packet} (h : p.packetId = 10) (q : Packet) (ps : List Packet) :
    (pktSer p).toList ++ frameStream (q :: ps) =
      0x0A :: 0x00 :: ((pktSer (falsePacket p)).toList ++ ((pktSer q).toList ++ frameStream ps)) := by
  rw [pktSer_toList_of_packetId h, pktSer_falsePacket_toList, frameStream, frmEnc_toList]
  simp

theorem decDrain_of_false_lock {s : State} {p : Packet} {ps : List Packet} (hd : s.rx.dstate = .awaitingLength)
    (hid : ∀ q ∈ p :: ps, q.packetId = 10) (hbuf : s.rx.rxbuf = (pktSer p).toList ++ frameStream ps) :
    ∃ u, decDrain s = .next (cleanResults (((p :: ps).dropLast).map falsePacket) ++ [.lenOk], u) ∧
      u.rx.dstate = .awaitingBody 10 ∧ u.rx.rxbuf.length = 8 := by
  induction ps generalizing s p with
  | nil =>
    have hp := hid p List.mem_cons_self
    rw [pktSer_toList_of_packetId hp, frameStream, List.append_nil] at hbuf
    have hpark : exec .decPoll (s.withRx
        { dstate := .awaitingBody Config.expectedLen, rxbuf := wordBytes ((wireWords p).drop 1) }) = .next _ :=
      exec_decPoll_of_short_body rfl (show 8 < 10 by decide)
    exact ⟨_, decDrain_of_progress (exec_decPoll_of_good_length hd hbuf rfl) rfl (decDrain_of_notYet hpark), rfl, rfl⟩
  | cons q ps ih =>
    obtain ⟨hp, hps⟩ := List.forall_mem_cons.mp hid
    rw [pktSer_append_frameStream_cons hp] at hbuf
    obtain ⟨u, hdrain, hend⟩ :=
      ih (s := s.withRx { dstate := .awaitingLength, rxbuf := (pktSer q).toList ++ frameStream ps }) rfl hps rfl
    refine ⟨u, ?_, hend⟩
    rw [decDrain_of_length_and_body hd hbuf hdrain, pktDes_pktSer]
    rfl

/-- Settles O38: from offset 2 the stream reads as false frames, one for each frame but the last, whose rest is too
short for a body. -/
theorem aFalseLockNeverReportsAnError : Obligations.AFalseLockNeverReportsAnError := by
  intro s p ps hd hid hbuf
  rw [frameStream, frmEnc_toList] at hbuf
  exact decDrain_of_false_lock hd hid hbuf

end Sys2Proof.Machine
end

section
/-! The decoder. A word, a byte, an image or a Packet is read from its own bytes and no others, so `decode` answers `i`
just on the operand bytes of `i` behind a select byte that names its operation (`decode_cons_eq_ok`). The round trips and
the refusals of a call follow. -/

namespace Sys2Proof

open Machine

/-! ### Reading one operand -/

theorem takeWord_eq_some_iff {bs rest : List Byte} {w : Word} :
    takeWord bs = some (w, rest) ↔ bs = bytesLe16 w ++ rest :=
  ⟨takeWord_eq_some, fun h => h ▸ takeWord_bytesLe16 w rest⟩

theorem takeI16_eq_some_iff {bs rest : List Byte} {v : Int16} :
    takeI16 bs = some (v, rest) ↔ bs = bytesLe16 (u16OfI16 v) ++ rest :=
  ⟨takeI16_eq_some, fun h => h ▸ takeI16_bytesLe16 v rest⟩

theorem takeByte_eq_some_iff {bs rest : List Byte} {b : Byte} : takeByte bs = some (b, rest) ↔ bs = b :: rest := by
  cases bs <;> simp [takeByte]

theorem takeImage_eq_some {bs rest : List Byte} {v : PacketImage} (h : takeImage bs = some (v, rest)) :
    bs = v.toList ++ rest := by
  simp only [takeImage, Option.map_eq_some_iff, Prod.mk.injEq] at h
  obtain ⟨image, himage, rfl, rfl⟩ := h
  rw [← imageOf_eq_some himage, List.take_append_drop]

theorem takeImage_eq_some_iff {bs rest : List Byte} {v : PacketImage} :
    takeImage bs = some (v, rest) ↔ bs = v.toList ++ rest :=
  ⟨takeImage_eq_some, fun h => h ▸ takeImage_toList v rest⟩

theorem takePacket_eq_some {bs rest : List Byte} {p : Packet} (h : takePacket bs = some (p, rest)) :
    bs = packetBytes p ++ rest := by
  simp only [takePacket, takeWord_eq_some_iff, takeI16_eq_some_iff, Option.bind_eq_bind, Option.pure_def,
    Option.bind_eq_some_iff, Prod.exists, Option.some.injEq, Prod.mk.injEq] at h
  obtain ⟨packetId, _, rfl, sequenceControl, _, rfl, dataLength, _, rfl, temperature, _, rfl, humidity, _, rfl, rfl,
    rfl⟩ := h
  simp [packetBytes]

theorem takePacket_eq_some_iff {bs rest : List Byte} {p : Packet} :
    takePacket bs = some (p, rest) ↔ bs = packetBytes p ++ rest :=
  ⟨takePacket_eq_some, fun h => h ▸ takePacket_packetBytes p rest⟩

/-! ### Reading one call -/

/-- An operation is read from its own operand bytes and no others. -/
theorem decodeOperands_eq_some {op : Op} {bs rest : List Byte} {i : Instr} (h : decodeOperands op bs = some (i, rest)) :
    opOf i = op ∧ bs = operandBytes i ++ rest := by
  cases op <;>
    simp only [decodeOperands, takeWord_eq_some_iff, takeI16_eq_some_iff, takeByte_eq_some_iff, takeImage_eq_some_iff,
      takePacket_eq_some_iff, Option.bind_eq_bind, Option.pure_def, Option.bind_eq_some_iff, Prod.exists,
      Option.some.injEq, Prod.mk.injEq] at h
  case' pidEnc => obtain ⟨version, _, rfl, ptype, _, rfl, shf, _, rfl, apid, _, rfl, rfl, rfl⟩ := h
  case' seqEnc => obtain ⟨seqflags, _, rfl, count, _, rfl, rfl, rfl⟩ := h
  case' tmBuild =>
    obtain ⟨version, _, rfl, ptype, _, rfl, shf, _, rfl, apid, _, rfl, seqflags, _, rfl, temp, _, rfl, hum, _, rfl, rfl,
      rfl⟩ := h
  case' pidDec | seqDec | pktSer | pktDes | frmEnc | rxPush => obtain ⟨operand, _, rfl, rfl, rfl⟩ := h
  case' decPoll | resetTx | resetRx => obtain ⟨rfl, rfl⟩ := h
  all_goals simp [opOf, operandBytes]

theorem select_eq_of_ofSelect_eq_some {code : BitVec 4} {op : Op} (h : Op.ofSelect code = some op) : op.select = code :=
  (by decide : ∀ code : BitVec 4, ∀ op ∈ Op.ofSelect code, op.select = code) code op h

theorem ofSelect_eq_none_of_twelve_le {code : BitVec 4} (h : 12 ≤ code.toNat) : Op.ofSelect code = none :=
  (by decide : ∀ code : BitVec 4, 12 ≤ code.toNat → Op.ofSelect code = none) code h

/-- The bytes that are read as `i`: its operand bytes, behind any select byte whose bits 3:0 are its select code. -/
theorem decode_cons_eq_ok {b : Byte} {bs rest : List Byte} {i : Instr} :
    decode (b :: bs) = .ok (i, rest) ↔ selectOf b = (opOf i).select ∧ bs = operandBytes i ++ rest := by
  constructor
  · intro h
    simp only [decode] at h
    split at h
    · cases h
    · rename_i op hop
      split at h
      · cases h
      · rename_i r hr
        cases h
        obtain ⟨rfl, hbs⟩ := decodeOperands_eq_some hr
        exact ⟨(select_eq_of_ofSelect_eq_some hop).symm, hbs⟩
  · rintro ⟨hb, rfl⟩
    simp [decode, hb, ofSelect_select, decodeOperands_operandBytes]

theorem length_operandBytes (i : Instr) : (operandBytes i).length = (opOf i).operandCount := by
  cases i with
  | pktDes bytes => exact bytes.length_toList
  | _ => rfl

theorem decodeOperands_eq_none {op : Op} {bs : List Byte} (h : bs.length < op.operandCount) :
    decodeOperands op bs = none := by
  by_contra hsome
  obtain ⟨⟨i, rest⟩, hread⟩ := Option.ne_none_iff_exists'.mp hsome
  obtain ⟨rfl, rfl⟩ := decodeOperands_eq_some hread
  rw [← length_operandBytes, List.length_append] at h
  omega

theorem decode_cons_of_unassigned {b : Byte} (h : 12 ≤ (selectOf b).toNat) (bs : List Byte) :
    decode (b :: bs) = .error (.unassignedSelect (selectOf b)) := by
  simp [decode, ofSelect_eq_none_of_twelve_le h]

theorem decode_cons_of_truncated {op : Op} {bs : List Byte} (h : bs.length < op.operandCount) :
    decode (op.select.setWidth 8 :: bs) = .error (.truncatedCall op.select) := by
  simp [decode, selectOf_select, ofSelect_select, decodeOperands_eq_none h]

/-! ### The round trips and the refusals -/

/-- Settles O2: the select byte names the operation, which reads its own operand bytes and no more. -/
theorem decodeAfterEncodeGivesTheOperationBack : Obligations.DecodeAfterEncodeGivesTheOperationBack :=
  decode_encode_append

/-- Settles O3: only the operand bytes of `i`, behind its select code, are read as `i`. -/
theorem encodeAfterDecodeGivesTheCallBack : Obligations.EncodeAfterDecodeGivesTheCallBack := by
  intro b bs rest i h
  obtain ⟨hb, rfl⟩ := decode_cons_eq_ok.mp h
  rw [hb]
  rfl

/-- Settles O5: the operation is named, and its operands take more bytes than are left. -/
theorem callsWithTooFewOperandBytesAreRefused : Obligations.CallsWithTooFewOperandBytesAreRefused := by
  intro i k hk
  have hcut : ((operandBytes i).take k).length < (opOf i).operandCount := by
    rw [← length_operandBytes, List.length_take_of_le hk.le]
    exact hk
  exact decode_cons_of_truncated hcut

/-- Settles O1: each call is evaluated. -/
theorem decodeReadsTheSelectCodes : Obligations.DecodeReadsTheSelectCodes := by
  unfold Obligations.DecodeReadsTheSelectCodes
  decide

/-- Settles O4: bits 3:0 of the select byte name no operation, so the call is read as none. -/
theorem unassignedSelectCodesAreRefused : Obligations.UnassignedSelectCodesAreRefused := by
  intro s b bs es hp hb
  have hselect : 12 ≤ (selectOf b).toNat := by rwa [selectOf, BitVec.toNat_setWidth]
  have hdecode : decodeCall (b :: bs) = .error (.unassignedSelect (selectOf b)) := by
    simp [decodeCall, decode_cons_of_unassigned hselect]
  rw [step_of_pending_call hp, runCall_of_error hdecode]
  rfl

end Sys2Proof
end

section
/-! Steps. A step does the first thing of the schedule; where the invariant holds, of all an agent can do only a push to a
full buffer and a call that is read as no operation have no next state. -/

namespace Sys2Proof.Machine

theorem step_of_pending_nil {s : State} (h : s.pending = []) : step s = .next (idle s) := by
  rw [step, h]

/-- Settles O6: one rule of `step` per form of the schedule. -/
theorem stepRunsTheDecodedOperation : Obligations.StepRunsTheDecodedOperation := by
  refine ⟨?_, ?_, ?_⟩
  · intro s bytes es i hp hdecode
    rw [step_of_pending_call hp, runCall_of_ok hdecode]
  · intro s es hp
    exact step_of_pending_cons hp
  · intro s hp
    exact step_of_pending_nil hp

theorem decodeCall_tableCall {nbits w : Nat} {i : Instr} (h : decodeTableWord nbits w = some i) :
    decodeCall (tableCall nbits w) = .ok i := by
  unfold decodeTableWord at h
  split at h
  · cases h; assumption
  · cases h

/-- Settles O7: the word is the first call of the schedule, and without it the state is as it was. -/
theorem fetchWordRunsTheTableWord : Obligations.FetchWordRunsTheTableWord := by
  intro s nbits w i h
  have hp : (s.withFetchWord nbits w).pending = .call (tableCall nbits w) :: s.pending := rfl
  rw [step_of_pending_call hp, runCall_of_ok (decodeCall_tableCall h)]
  rfl

/-- In the legal forms of `DSTATE` every operation answers, but for a push to a full buffer. -/
theorem exec_runs_or_full {s : State} (hlegal : s.rx.dstate.legal = true) (i : Instr) :
    (∃ t, exec i s = .next t) ∨ ∃ b, i = .rxPush b ∧ exec i s = .fault .rxBufFull := by
  cases i with
  | rxPush b =>
    cases hroom : hasRoom Config.rxDepth s.rx.avail with
    | true => exact .inl ⟨_, pushByte_of_room hroom⟩
    | false => exact .inr ⟨b, rfl, pushByte_of_full hroom⟩
  | decPoll => exact .inl (execDecPoll_of_legal hlegal)
  | _ => exact .inl ⟨_, rfl⟩

theorem deliverByte_runs (depth : RxDepth) (s : State) : ∃ t, deliverByte depth s = .next t := by
  rcases deliverByte_cases depth s with ⟨h, -⟩ | ⟨b, rest, -, -, h⟩
  · exact ⟨_, h⟩
  · exact ⟨_, h⟩

/-- Settles O47: of the things an agent does only a call can stop, by the operation it is read as or by being read as
none. -/
theorem onlyMisusesStopTheMachine : Obligations.OnlyMisusesStopTheMachine := by
  rintro s ⟨hlegal, -⟩
  cases hp : s.pending with
  | nil => exact .inl ⟨_, step_of_pending_nil hp⟩
  | cons e es =>
    cases e with
    | deliver =>
      rw [step_of_pending_cons hp]
      exact .inl (deliverByte_runs Config.rxDepth _)
    | write frame => exact .inl ⟨_, step_of_pending_cons hp⟩
    | call bytes =>
      rw [step_of_pending_call hp]
      cases hdecode : decodeCall bytes with
      | error r => exact .inr (.inr ⟨bytes, es, r, rfl, hdecode, runCall_of_error hdecode _⟩)
      | ok i =>
        rw [runCall_of_ok hdecode]
        rcases exec_runs_or_full (s := { s with pending := es }) hlegal i with hruns | ⟨b, rfl, hfull⟩
        · exact .inl hruns
        · exact .inr (.inl ⟨bytes, es, b, rfl, hdecode, hfull⟩)

end Sys2Proof.Machine
end

section
/-! The RX half and its frame. A push has a step just when there is room (`hasRoom_iff`), and so has a move of the
transport's. A poll refuses a body of another size. Which operation writes which state element is read off what each can
do to its half. -/

namespace Sys2Proof.Machine

/-! ### Pushing -/

theorem hasRoom_iff (depth : RxDepth) (n : Nat) :
    hasRoom depth n = true ↔ ∀ above, depth = .bounded above → n < 10 + above := by
  cases depth with
  | bounded above => simp [hasRoom_bounded]
  | unbounded => simp [hasRoom_unbounded]

theorem hasRoom_bounded_eq_false {above n : Nat} (h : 10 + above ≤ n) : hasRoom (.bounded above) n = false := by
  rw [← Bool.not_eq_true, hasRoom_bounded]
  omega

theorem exec_rxPush (b : Byte) (s : State) : exec (.rxPush b) s = pushByte Config.rxDepth b s := rfl

/-- Settles O23: there is room. -/
theorem rxPushAppendsTheByte : Obligations.RxPushAppendsTheByte :=
  fun _ s hroom => pushByte_of_room ((hasRoom_iff Config.rxDepth s.rx.avail).mpr hroom)

/-- Settles O24: a bounded buffer has room below its capacity and none from there on; an unbounded one always has. -/
theorem rxPushHasNoStepWhenTheBufferIsFull : Obligations.RxPushHasNoStepWhenTheBufferIsFull := by
  refine ⟨?_, ?_, ?_, exec_rxPush⟩
  · intro b s above hfull
    exact pushByte_of_full (hasRoom_bounded_eq_false hfull)
  · intro b s above hroom
    exact pushByte_of_room ((hasRoom_bounded above s.rx.avail).mpr hroom)
  · intro b s
    exact pushByte_of_room (hasRoom_unbounded s.rx.avail)

theorem rxFeed_cons_of_room {b : Byte} {s : State} (h : hasRoom Config.rxDepth s.rx.avail = true) (bs : List Byte) :
    rxFeed (b :: bs) s = rxFeed bs ((s.withRx (s.rx.push b)).returns .none) := by
  rw [rxFeed, exec_rxPush, pushByte_of_room h, andThen_next]

/-- Settles O52: each byte of the feed is pushed with room for it and for those still to come. -/
theorem rxFeedAppendsTheBytesInOrder : Obligations.RxFeedAppendsTheBytesInOrder := by
  intro bs s hfits
  induction bs generalizing s with
  | nil => exact ⟨s, rfl, by rw [List.append_nil], rfl, rfl⟩
  | cons b bs ih =>
    have hroom : hasRoom Config.rxDepth s.rx.avail = true := by
      refine (hasRoom_iff _ _).mpr fun above hdepth => ?_
      have := hfits above hdepth
      rw [List.length_cons] at this
      rw [RxHalf.avail]
      omega
    obtain ⟨t, hfeed, hrx, htx, hlink⟩ := ih ((s.withRx (s.rx.push b)).returns .none) fun above hdepth => by
      simpa [Nat.add_assoc, Nat.add_comm 1] using hfits above hdepth
    refine ⟨t, (rxFeed_cons_of_room hroom bs).trans hfeed, ?_, htx, hlink⟩
    simpa using hrx

/-! ### The transport's step -/

theorem deliverByte_of_room {depth : RxDepth} {b : Byte} {rest : List Byte} {s : State} (hlink : s.link = b :: rest)
    (hroom : hasRoom depth s.rx.avail = true) :
    deliverByte depth s = .next (((s.withLink rest).withRx (s.rx.push b)).returns .none) := by
  rcases deliverByte_cases depth s with ⟨-, hempty | hfull⟩ | ⟨b', rest', hlink', -, h⟩
  · cases hempty.symm.trans hlink
  · cases hfull.symm.trans hroom
  · cases hlink'.symm.trans hlink
    exact h

theorem deliverByte_of_held_off {depth : RxDepth} {s : State} (h : s.link = [] ∨ hasRoom depth s.rx.avail = false) :
    deliverByte depth s = .next (s.returns .none) := by
  rcases deliverByte_cases depth s with ⟨hstay, -⟩ | ⟨b, rest, hlink, hroom, -⟩
  · exact hstay
  · simp [hlink, hroom] at h

/-- Settles O48: with a byte and room for it the byte moves; without the one or the other nothing does. -/
theorem theTransportMovesTheOldestByte : Obligations.TheTransportMovesTheOldestByte := by
  refine ⟨?_, ?_, ?_⟩
  · intro s b rest es hp hlink hroom
    rw [step_of_pending_cons hp]
    exact deliverByte_of_room (s := { s with pending := es }) hlink ((hasRoom_iff _ _).mpr hroom)
  · intro s es hp hlink
    rw [step_of_pending_cons hp]
    exact deliverByte_of_held_off (s := { s with pending := es }) (.inl hlink)
  · intro s above hfull
    exact deliverByte_of_held_off (.inr (hasRoom_bounded_eq_false hfull))

/-! ### Polling -/

theorem exec_decPoll_of_wrong_sized_body {s : State} {n : Word} (hd : s.rx.dstate = .awaitingBody n)
    (hn : n ≠ Config.expectedLen) (hlen : n.toNat ≤ s.rx.rxbuf.length) :
    exec .decPoll s = .refused (.wrongSizedBody n) := by
  rw [exec_decPoll_of_awaitingBody hd]
  rcases pollBody_cases n s with ⟨hlt, -⟩ | ⟨image, rest, hten, -⟩ | ⟨-, -, h⟩
  · omega
  · exact absurd (BitVec.eq_of_toNat_eq hten) hn
  · exact h

/-- Settles O30: the bytes are there, and are no packet image. -/
theorem pollRefusesABodyOfAnotherSize : Obligations.PollRefusesABodyOfAnotherSize :=
  fun _ _ => exec_decPoll_of_wrong_sized_body

theorem PollResult.isError_eq_code (r : PollResult) : r.isError = (r.code == 3) := by
  cases r <;> rfl

theorem PollResult.isProgress_eq_code (r : PollResult) : r.isProgress = (r.code != 0) := by
  cases r <;> rfl

/-- Settles O56: whether a result is an error, and whether it is progress, is said by its code. -/
theorem resultCodesAreDistinct : Obligations.ResultCodesAreDistinct := by
  refine ⟨fun r r' hcode => ?_, rfl, rfl, fun _ => rfl, fun _ => rfl, fun r => ?_⟩
  · simp only [PollResult.isError_eq_code, PollResult.isProgress_eq_code, hcode, and_self]
  · cases r with
    | framingError len => exact ⟨fun _ => ⟨len, rfl⟩, fun _ => rfl⟩
    | _ => exact ⟨nofun, nofun⟩

/-! ### Resets, and the writers of each state element -/

/-- Settles O40: the rule of `RESET_TX`. -/
theorem resetTxZeroesTheCounterOnly : Obligations.ResetTxZeroesTheCounterOnly := exec_resetTx

theorem exec_resetRx (s : State) :
    exec .resetRx s = .next ((s.withRx { dstate := .awaitingLength, rxbuf := [] }).returns .none) := rfl

/-- Settles O41: the rule of `RESET_RX`. -/
theorem resetRxEmptiesTheRxHalfOnly : Obligations.ResetRxEmptiesTheRxHalfOnly := exec_resetRx

theorem exec_keeps_link_and_pending {i : Instr} {s t : State} (h : exec i s = .next t) :
    t.link = s.link ∧ t.pending = s.pending := by
  rcases exec_actsOnOneHalf i with hact | hact
  · obtain ⟨tx, o, rfl, -⟩ := hact.eq_next h
    exact ⟨rfl, rfl⟩
  · obtain ⟨rx, o, rfl, -⟩ := hact.eq_next h
    exact ⟨rfl, rfl⟩

theorem opOf_of_tx_ne {i : Instr} {s t : State} (h : exec i s = .next t) (hne : t.tx ≠ s.tx) :
    opOf i = .tmBuild ∨ opOf i = .resetTx := by
  by_contra hother
  obtain ⟨hbuild, hreset⟩ := not_or.mp hother
  exact hne (tx_eq_of_exec hbuild hreset h)

theorem opOf_of_dstate_ne {i : Instr} {s t : State} (h : exec i s = .next t) (hne : t.rx.dstate ≠ s.rx.dstate) :
    opOf i = .decPoll ∨ opOf i = .resetRx := by
  rcases exec_rx_cases h with ⟨-, hrx⟩ | ⟨b, -, -, hrx⟩ | ⟨r, rfl, -⟩ | ⟨rfl, -⟩
  · exact absurd (congrArg RxHalf.dstate hrx) hne
  · exact absurd (congrArg RxHalf.dstate hrx) hne
  · exact .inl rfl
  · exact .inr rfl

theorem opOf_of_rxbuf_ne {i : Instr} {s t : State} (h : exec i s = .next t) (hne : t.rx.rxbuf ≠ s.rx.rxbuf) :
    opOf i = .rxPush ∨ opOf i = .decPoll ∨ opOf i = .resetRx := by
  rcases exec_rx_cases h with ⟨-, hrx⟩ | ⟨b, rfl, -, -⟩ | ⟨r, rfl, -⟩ | ⟨rfl, -⟩
  · exact absurd (congrArg RxHalf.rxbuf hrx) hne
  · exact .inl rfl
  · exact .inr (.inl rfl)
  · exact .inr (.inr rfl)

/-- Settles O42: an operation that is not of an element's writers leaves it as it was. -/
theorem eachStateElementHasItsWriters : Obligations.EachStateElementHasItsWriters :=
  fun _ _ _ h => ⟨opOf_of_tx_ne h, opOf_of_dstate_ne h, opOf_of_rxbuf_ne h, exec_keeps_link_and_pending h⟩

end Sys2Proof.Machine
end

section
/-! The registers. They hold an RX half just when reading them gives it back (`holds_iff`), and each thing a poll does to
the RX half is done by the poll on the registers. -/

namespace Sys2Proof.Machine

theorem DState.heldBy_iff {d : DState} {tag : BitVec 1} {explen : Word} :
    d.heldBy tag explen = true ↔ DState.ofRegisters tag explen = d := by
  rcases BitVec.eq_zero_or_eq_one tag with rfl | rfl
  · cases d <;> simp [DState.heldBy, DState.ofRegisters]
  · cases d <;> simp [DState.heldBy, DState.ofRegisters]

/-- Registers that hold an RX half hold the one that is read back from them. -/
theorem RxRegisters.holds_iff {r : RxRegisters} {rx : RxHalf} :
    r.holds rx = true ↔ DState.ofRegisters r.tag r.explen = rx.dstate ∧ r.rxbuf = rx.rxbuf := by
  rw [RxRegisters.holds, Bool.and_eq_true, DState.heldBy_iff, decide_eq_true_eq]

namespace RxRegisters

section
variable {r : RxRegisters} {b0 b1 : Byte} {rest : List Byte} (left : Word)

theorem poll_of_short_length (htag : r.tag = 0) (hlen : r.rxbuf.length < 2) : r.poll left = .next (r, .notYet) := by
  rw [poll, if_pos htag]
  split
  · rename_i hbuf
    simp [hbuf] at hlen
  · rfl
  · rfl

theorem poll_of_good_length (htag : r.tag = 0) (hbuf : r.rxbuf = b0 :: b1 :: rest)
    (hgood : le16 b0 b1 = Config.expectedLen) :
    r.poll left = .next ({ tag := 1, explen := Config.expectedLen, rxbuf := rest }, .lenOk) := by
  simp [poll, htag, hbuf, hgood]

theorem poll_of_bad_length (htag : r.tag = 0) (hbuf : r.rxbuf = b0 :: b1 :: rest)
    (hbad : le16 b0 b1 ≠ Config.expectedLen) :
    r.poll left = .next ({ tag := 0, explen := left, rxbuf := rest }, .framingError (le16 b0 b1)) := by
  simp [poll, htag, hbuf, hbad]

theorem poll_of_short_body (htag : r.tag = 1) (hlen : r.rxbuf.length < r.explen.toNat) :
    r.poll left = .next (r, .notYet) := by
  simp [poll, htag, hlen]

theorem poll_of_body {image : PacketImage} (htag : r.tag = 1) (hten : r.explen.toNat = 10)
    (hbuf : r.rxbuf = image.toList ++ rest) :
    r.poll left = .next ({ tag := 0, explen := left, rxbuf := rest }, .packet (pktDes image)) := by
  have htake : r.rxbuf.take r.explen.toNat = image.toList := by rw [hbuf, List.take_left' (by simp [hten])]
  have hdrop : r.rxbuf.drop r.explen.toNat = rest := by rw [hbuf, List.drop_left' (by simp [hten])]
  have hlen : ¬ r.rxbuf.length < r.explen.toNat := by simp [hbuf, hten]
  simp [poll, htag, hlen, htake, hdrop, imageOf_toList]

theorem poll_of_wrong_sized_body (htag : r.tag = 1) (hne : r.explen.toNat ≠ 10)
    (hlen : r.explen.toNat ≤ r.rxbuf.length) : r.poll left = .refused (.wrongSizedBody r.explen) := by
  have himage : imageOf (r.rxbuf.take r.explen.toNat) = none := by
    rw [imageOf, dif_neg (by rwa [List.length_take_of_le hlen])]
  simp [poll, htag, hlen.not_gt, himage]

end

/-- The registers' poll answers as `DEC_POLL` does and the registers hold what it leaves, or both refuse alike. -/
def PollAgrees (left : Word) (r : RxRegisters) (s : State) : Prop :=
  (∃ (r' : RxRegisters) (result : PollResult) (t : State), r.poll left = .next (r', result) ∧
    exec .decPoll s = .next t ∧ t.out = .poll result ∧ r'.holds t.rx = true) ∨
  ∃ q : Refusal, r.poll left = .refused q ∧ exec .decPoll s = .refused q

/-- With the tag at 0 the registers' poll is the one in `AwaitingLength` (R132, R133, R134). -/
theorem pollAgrees_of_tag_zero (left : Word) {r : RxRegisters} {s : State} (htag : r.tag = 0)
    (hd : s.rx.dstate = .awaitingLength) (hbuf : r.rxbuf = s.rx.rxbuf) : r.PollAgrees left s := by
  have hexec := exec_decPoll_of_awaitingLength hd
  rcases pollLength_cases s with ⟨hlen, he⟩ | ⟨b0, b1, rest, hbytes, hgood, he⟩ | ⟨b0, b1, rest, hbytes, hbad, he⟩
  · rw [he] at hexec
    exact .inl ⟨_, _, _, poll_of_short_length left htag (hbuf ▸ hlen), hexec, rfl,
      holds_iff.mpr ⟨by simp [notYet, htag, hd, DState.ofRegisters], hbuf⟩⟩
  · rw [he] at hexec
    exact .inl ⟨_, _, _, poll_of_good_length left htag (hbuf.trans hbytes) hgood, hexec, rfl, holds_iff.mpr ⟨rfl, rfl⟩⟩
  · rw [he] at hexec
    exact .inl ⟨_, _, _, poll_of_bad_length left htag (hbuf.trans hbytes) hbad, hexec, rfl, holds_iff.mpr ⟨rfl, rfl⟩⟩

/-- With the tag at 1 it is the one in `AwaitingBody` of what `EXPLEN` holds (R135, R136). -/
theorem pollAgrees_of_tag_one (left : Word) {r : RxRegisters} {s : State} (htag : r.tag = 1)
    (hd : s.rx.dstate = .awaitingBody r.explen) (hbuf : r.rxbuf = s.rx.rxbuf) : r.PollAgrees left s := by
  have hexec := exec_decPoll_of_awaitingBody hd
  rcases pollBody_cases r.explen s with ⟨hlen, he⟩ | ⟨image, rest, hten, hbytes, he⟩ | ⟨hlen, hne, he⟩
  · exact .inl ⟨_, _, _, poll_of_short_body left htag (hbuf ▸ hlen), hexec.trans he, rfl,
      holds_iff.mpr ⟨by simp [notYet, htag, hd, DState.ofRegisters], hbuf⟩⟩
  · exact .inl ⟨_, _, _, poll_of_body left htag hten (hbuf.trans hbytes), hexec.trans he, rfl, holds_iff.mpr ⟨rfl, rfl⟩⟩
  · exact .inr ⟨_, poll_of_wrong_sized_body left htag hne (hbuf ▸ hlen), hexec.trans he⟩

theorem pollAgrees_of_holds (left : Word) {r : RxRegisters} {s : State} (h : r.holds s.rx = true) :
    r.PollAgrees left s := by
  obtain ⟨hd, hbuf⟩ := holds_iff.mp h
  rcases BitVec.eq_zero_or_eq_one r.tag with htag | htag
  · exact pollAgrees_of_tag_zero left htag (by simp [← hd, htag, DState.ofRegisters]) hbuf
  · exact pollAgrees_of_tag_one left htag (by simp [← hd, htag, DState.ofRegisters]) hbuf

theorem push_holds_of_exec {b : Byte} {r : RxRegisters} {s t : State} (hr : r.holds s.rx = true)
    (h : exec (.rxPush b) s = .next t) : (r.push b).holds t.rx = true := by
  obtain ⟨-, rfl⟩ := pushByte_cases h
  obtain ⟨hd, hbuf⟩ := holds_iff.mp hr
  exact holds_iff.mpr ⟨hd, congrArg (· ++ [b]) hbuf⟩

/-- While the tag is 0, neither what `EXPLEN` held nor what a poll leaves there is seen, until a poll sets the tag. -/
theorem poll_of_tag_zero_ignores_explen (left left' e e' : Word) (bs : List Byte) :
    ∃ (r r' : RxRegisters) (result : PollResult),
      poll left { tag := 0, explen := e, rxbuf := bs } = .next (r, result) ∧
      poll left' { tag := 0, explen := e', rxbuf := bs } = .next (r', result) ∧
      r.tag = r'.tag ∧ r.rxbuf = r'.rxbuf ∧ (r.tag = 1 → r.explen = r'.explen) := by
  match bs with
  | [] => exact ⟨_, _, _, rfl, rfl, rfl, rfl, nofun⟩
  | [_] => exact ⟨_, _, _, rfl, rfl, rfl, rfl, nofun⟩
  | b0 :: b1 :: rest =>
    by_cases hlen : le16 b0 b1 = Config.expectedLen
    · exact ⟨_, _, _, poll_of_good_length left rfl rfl hlen, poll_of_good_length left' rfl rfl hlen, rfl, rfl,
        fun _ => rfl⟩
    · exact ⟨_, _, _, poll_of_bad_length left rfl rfl hlen, poll_of_bad_length left' rfl rfl hlen, rfl, rfl, nofun⟩

end RxRegisters

/-- Settles O54: the registers do to an RX half they hold what the operations do, and `EXPLEN` is read with the tag at 1
alone. -/
theorem explenIsReadOnlyWhileABodyIsAwaited : Obligations.ExplenIsReadOnlyWhileABodyIsAwaited :=
  ⟨fun _ _ _ => DState.heldBy_iff, fun left _ _ => RxRegisters.pollAgrees_of_holds left,
    fun _ s => ⟨_, exec_resetRx s, rfl⟩, fun _ _ _ _ => RxRegisters.push_holds_of_exec,
    RxRegisters.poll_of_tag_zero_ignores_explen⟩

end Sys2Proof.Machine
end
